-- ==== Sys2Proof/Word.lean ====
section
/-!
DEFINITION. The word types of the spec: instruction words, addresses and register contents are
"unsigned 32-bit" values (rules R2, R8, R9), register identifiers are 5 bits wide, the two immediates
are 20 and 12 bits wide (rules R19 to R22).
-/

namespace Sys2Proof

/-- One byte of memory or of a serialized word (rule R36). -/
abbrev Byte := BitVec 8

/-- A 32-bit value: an address, an instruction word or a register's contents (`XLEN` and `ILEN`, R8). -/
abbrev Word := BitVec 32

/-- A register identifier, "an integer in [0, 31] naming one of 32 general-purpose registers"
(R13, `REGW` of R8). -/
abbrev RegId := BitVec 5

/-- The unsigned upper immediate of the U-type (R52, R57). -/
abbrev Imm20 := BitVec 20

/-- The lower immediate or store offset, as its two's-complement pattern (R19, R53, R54). -/
abbrev Imm12 := BitVec 12

end Sys2Proof
end

