-- ==== Sys2Proof/Machine/Bits.lean ====
section
/-!
DEFINITION. The notation of rules R9 and R10 (values, masking, extension), the fixed field values of R56,
the field positions of R51 and R62, and the little-endian byte order of a word (R36).
-/

namespace Sys2Proof

/-! ### Values, masking and extension (R9, R10) -/

/-- `uint(v)`. -/
def uint {n : Nat} (v : BitVec n) : Nat := v.toNat

/-- `sint(v)`: the two's-complement signed value. -/
def sint {n : Nat} (v : BitVec n) : Int := v.toInt

/-- `mask_N(n)`: "the unique `Bits<N>` whose unsigned value is n mod 2^N", for an integer of any size or
sign (R10, R25). -/
def mask (width : Nat) (n : Int) : BitVec width := BitVec.ofInt width n

/-- `sext_32(v)` (R10). -/
def sext32 {n : Nat} (v : BitVec n) : Word := v.signExtend 32

/-- `zext_32(v)` (R10). -/
def zext32 {n : Nat} (v : BitVec n) : Word := v.setWidth 32

/-- `v[lo+len-1 : lo]`, the slice of `len` bits from bit `lo` up (R9). -/
def slice {n : Nat} (v : BitVec n) (lo len : Nat) : BitVec len := v.extractLsb' lo len

/-! ### Fixed field values (R8, R56) -/

/-- `OPC_LUI`. -/
def opcLui : BitVec 7 := 0b0110111
/-- `OPC_OP_IMM`. -/
def opcOpImm : BitVec 7 := 0b0010011
/-- `OPC_STORE`. -/
def opcStore : BitVec 7 := 0b0100011
/-- `FUNCT3_ADDI`: "a fixed 3-bit function code of zero". -/
def funct3Addi : BitVec 3 := 0b000
/-- `FUNCT3_SW`: "fixed function code `0b010`". -/
def funct3Sw : BitVec 3 := 0b010
/-- `WORD_EBREAK`. -/
def wordEbreak : Word := 0x00100073

/-! ### Fields of an instruction word (R51, R62) -/

def opcodeOf (w : Word) : BitVec 7 := slice w 0 7
def rdOf (w : Word) : RegId := slice w 7 5
def funct3Of (w : Word) : BitVec 3 := slice w 12 3
def rs1Of (w : Word) : RegId := slice w 15 5
def rs2Of (w : Word) : RegId := slice w 20 5
def immUOf (w : Word) : Imm20 := slice w 12 20
def immIOf (w : Word) : Imm12 := slice w 20 12
/-- `immS(w) = w[31:25] ++ w[11:7]` (R59, R62). -/
def immSOf (w : Word) : Imm12 := slice w 25 7 ++ slice w 7 5

/-! ### Byte order (R36, R41) -/

/-- The first `count` bytes of a value in increasing address order: byte `j` is `v[8j+7:8j]` (R36). -/
def bytesLE {n : Nat} (count : Nat) (v : BitVec n) : List Byte :=
  (List.range count).map fun j => slice v (8 * j) 8

/-- The value whose little-endian bytes, lowest address first, are the list (R41: "its inverse"). -/
def ofBytesLE (n : Nat) : List Byte → BitVec n
  | [] => 0
  | b :: rest => b.setWidth n ||| (ofBytesLE n rest <<< 8)

end Sys2Proof
end

