-- ==== Sys2Proof/Machine/Encoder.lean ====
section
/-!
DEFINITION. The units `ENC_U`, `ENC_I`, `ENC_S` and `ENC_SYS` (41_encoder.md, rules R79 to R82): pure,
total packers of fields into one 32-bit word. The `…Value` forms take integers and mask each argument to
its port width first (R25).
-/

namespace Sys2Proof.Machine

/-- `ENC_U` (R79): `u_imm20 ++ u_rd ++ 0b0110111`. -/
def encU (rd : RegId) (imm20 : Imm20) : Word := imm20 ++ rd ++ opcLui

/-- `ENC_I` (R80): `i_imm12 ++ i_rs1 ++ 0b000 ++ i_rd ++ 0b0010011`. -/
def encI (rd rs1 : RegId) (imm12 : Imm12) : Word := imm12 ++ rs1 ++ funct3Addi ++ rd ++ opcOpImm

/-- `ENC_S` (R81): `s_imm12[11:5] ++ s_rs2 ++ s_rs1 ++ 0b010 ++ s_imm12[4:0] ++ 0b0100011`. -/
def encS (rs2 rs1 : RegId) (imm12 : Imm12) : Word :=
  slice imm12 5 7 ++ rs2 ++ rs1 ++ funct3Sw ++ slice imm12 0 5 ++ opcStore

/-- `ENC_SYS` (R82): a constant, "no fields to pack". -/
def encSys : Word := wordEbreak

/-- `encode_upper_immediate(dest_reg, imm20)` on integers (R25, R79). -/
def encUValue (destReg imm20 : Int) : Word := encU (mask 5 destReg) (mask 20 imm20)

/-- `encode_add_immediate(dest_reg, src_reg, imm12)` on integers (R25, R80). -/
def encIValue (destReg srcReg imm12 : Int) : Word :=
  encI (mask 5 destReg) (mask 5 srcReg) (mask 12 imm12)

/-- `encode_store_word(src_reg, base_reg, imm12)` on integers (R25, R81). -/
def encSValue (srcReg baseReg imm12 : Int) : Word :=
  encS (mask 5 srcReg) (mask 5 baseReg) (mask 12 imm12)

end Sys2Proof.Machine
end

