-- ==== Sys2Proof/Syntax.lean ====
section
/-!
DEFINITION. The instructions whose words the block produces and the consuming hart executes: one
constructor for each row of spec/opcode_table.json (rules R61, R94 to R97). Every operand is exactly as
wide as the instruction field it comes from (rule R25: "Each input port is exactly as wide as the
instruction field it feeds"), so every term of `Instr` is well formed by its type.
-/

namespace Sys2Proof

inductive Instr where
  /-- LUI, U-type (R52, R94) -/
  | lui (rd : RegId) (imm20 : Imm20)
  /-- ADDI, I-type (R53, R95); `imm12` is the two's-complement pattern -/
  | addi (rd rs1 : RegId) (imm12 : Imm12)
  /-- SW, S-type (R54, R96): `rs2` is the register whose value is stored, `rs1` the base -/
  | sw (rs2 rs1 : RegId) (imm12 : Imm12)
  /-- EBREAK, the fixed word of the system format (R55, R97) -/
  | ebreak
  deriving DecidableEq, Repr

end Sys2Proof
end

