-- ==== Sys2Proof/WellFormed.lean ====
section
/-!
DEFINITION. Well-formedness at the level of values. The source's encoding operations take integers
(`encode_upper_immediate(dest_reg, imm20)` and so on); a VALUE-LEVEL call may be out of range, and the
source puts the range on the caller ("callers are responsible for range constraints", R26) while the
encoder masks (R25). `SrcCall` is such a call with unbounded integers, `SrcCall.check` names what is out
of range, and `SrcCall.wf` says that nothing is. (An `Instr` needs no check: its operands are field-wide.)
The masking itself is `SrcCall.masked` in Decode.lean.
-/

namespace Sys2Proof

/-- A call of one of the "Four pure encoding operations" with integer arguments (R20 to R22, R25). -/
inductive SrcCall where
  /-- `encode_upper_immediate(dest_reg, imm20)` -/
  | upperImmediate (destReg imm20 : Int)
  /-- `encode_add_immediate(dest_reg, src_reg, imm12)` -/
  | addImmediate (destReg srcReg imm12 : Int)
  /-- `encode_store_word(src_reg, base_reg, imm12)` -/
  | storeWord (srcReg baseReg imm12 : Int)
  /-- `breakpoint_trap()` -/
  | breakpointTrap
  deriving DecidableEq, Repr

/-- What can be out of range in a call, with the offending value. -/
inductive RangeError where
  | register (n : Int)
  | upperImmediate (n : Int)
  | lowerImmediate (n : Int)
  deriving DecidableEq, Repr

/-- A register identifier is "an integer in [0, 31]" (R13). -/
def registerErrors (n : Int) : List RangeError :=
  if 0 ≤ n ∧ n < 32 then [] else [.register n]

/-- An upper immediate is unsigned, 20 bits (R19, R70). -/
def upperErrors (n : Int) : List RangeError :=
  if 0 ≤ n ∧ n < 2 ^ 20 then [] else [.upperImmediate n]

/-- A lower immediate or offset lies in [-2048, 2047] (R19, R58). -/
def lowerErrors (n : Int) : List RangeError :=
  if -2048 ≤ n ∧ n ≤ 2047 then [] else [.lowerImmediate n]

/-- Every argument of the call that is out of range, in argument order. -/
def SrcCall.check : SrcCall → List RangeError
  | .upperImmediate d i => registerErrors d ++ upperErrors i
  | .addImmediate d r i => registerErrors d ++ registerErrors r ++ lowerErrors i
  | .storeWord r b i => registerErrors r ++ registerErrors b ++ lowerErrors i
  | .breakpointTrap => []

/-- The caller met its range constraints. -/
def SrcCall.wf (c : SrcCall) : Bool := c.check.isEmpty

end Sys2Proof
end

