-- ==== Sys2Proof/Decode.lean ====
section
/-!
DEFINITION. The classifier of R63, the decoder of a word and of a list of bytes (total, rejecting by
name), the opcode table of R61, and the encoder of an instruction, which is the block's own encoder
(R85: "One encoder serves every user of the block").
-/

namespace Sys2Proof

/-- The verdicts of the classifier (R63). -/
inductive WordClass where
  | lui
  | addi
  | sw
  | ebreak
  | notProduced
  deriving DecidableEq, Repr

/-- `classify(w)`, in the order of R63, total on all 2^32 words. -/
def classify (w : Word) : WordClass :=
  if opcodeOf w = opcLui then .lui
  else if opcodeOf w = opcOpImm ∧ funct3Of w = funct3Addi then .addi
  else if opcodeOf w = opcStore ∧ funct3Of w = funct3Sw then .sw
  else if w = wordEbreak then .ebreak
  else .notProduced

/-- The instruction a word stands for: its class and the fields of R62; `none` for a word the block
never produces (R63, R66). -/
def decodeWord (w : Word) : Option Instr :=
  match classify w with
  | .lui => some (.lui (rdOf w) (immUOf w))
  | .addi => some (.addi (rdOf w) (rs1Of w) (immIOf w))
  | .sw => some (.sw (rs2Of w) (rs1Of w) (immSOf w))
  | .ebreak => some .ebreak
  | .notProduced => none

/-- Why the decoder gives no instruction. -/
inductive DecodeError where
  /-- fewer than four bytes are left: no instruction is shorter than one word (R51, R69) -/
  | truncated
  /-- the word is in none of the four classes (R63) -/
  | notProduced (w : Word)
  deriving DecidableEq, Repr

/-- Decode one instruction from the front of a byte list, in the little-endian order of R36, and give
the rest of the list. -/
def decode : List Byte → Except DecodeError (Instr × List Byte)
  | b0 :: b1 :: b2 :: b3 :: rest =>
    let w : Word := ofBytesLE 32 [b0, b1, b2, b3]
    match decodeWord w with
    | some i => .ok (i, rest)
    | none => .error (.notProduced w)
  | _ => .error .truncated

/-! ### The opcode table (R61) -/

/-- A row of R61: a word is in the class when `w & mask = match`. -/
structure OpcodeRow where
  cls : WordClass
  maskBits : Word
  matchBits : Word
  deriving DecidableEq, Repr

def rowLui : OpcodeRow := ⟨.lui, 0x0000007F, 0x00000037⟩
def rowAddi : OpcodeRow := ⟨.addi, 0x0000707F, 0x00000013⟩
def rowSw : OpcodeRow := ⟨.sw, 0x0000707F, 0x00002023⟩
def rowEbreak : OpcodeRow := ⟨.ebreak, 0xFFFFFFFF, 0x00100073⟩

/-- The four rows of R61 and spec/opcode_table.json. -/
def opcodeTable : List OpcodeRow := [rowLui, rowAddi, rowSw, rowEbreak]

/-- `w & mask = match` (R61). -/
def OpcodeRow.matches (r : OpcodeRow) (w : Word) : Bool := w &&& r.maskBits == r.matchBits

/-! ### The encoder -/

/-- The word of an instruction, by the units of 41_encoder.md (R79 to R82). -/
def encode : Instr → Word
  | .lui rd imm20 => Machine.encU rd imm20
  | .addi rd rs1 imm12 => Machine.encI rd rs1 imm12
  | .sw rs2 rs1 imm12 => Machine.encS rs2 rs1 imm12
  | .ebreak => Machine.encSys

/-- The 4-byte image of an instruction (R36). -/
def encodeBytes (i : Instr) : List Byte := bytesLE 4 (encode i)

/-! ### Value-level calls (R25) -/

/-- The instruction a value-level call denotes, after each argument is masked to its port width (R25). -/
def SrcCall.masked : SrcCall → Instr
  | .upperImmediate d i => .lui (mask 5 d) (mask 20 i)
  | .addImmediate d r i => .addi (mask 5 d) (mask 5 r) (mask 12 i)
  | .storeWord r b i => .sw (mask 5 r) (mask 5 b) (mask 12 i)
  | .breakpointTrap => .ebreak

/-- The call with in-range arguments that denotes an instruction: registers and the upper immediate
unsigned, the lower immediate signed (R70, R72). -/
def SrcCall.ofInstr : Instr → SrcCall
  | .lui rd imm20 => .upperImmediate (uint rd) (uint imm20)
  | .addi rd rs1 imm12 => .addImmediate (uint rd) (uint rs1) (sint imm12)
  | .sw rs2 rs1 imm12 => .storeWord (uint rs2) (uint rs1) (sint imm12)
  | .ebreak => .breakpointTrap

/-- HINT encodings the block does produce: LUI or ADDI with destination `x0` (R67). -/
def Instr.isHint : Instr → Bool
  | .lui rd _ => rd == 0
  | .addi rd _ _ => rd == 0
  | .sw _ _ _ => false
  | .ebreak => false

/-! ### The host's view of the opcode table -/

/-- The instruction the decoder reads from an instruction whose table bits are `w`, laid out in memory
order (R36), every bit above `nbits` zero. Every instruction is one 32-bit word (R51). -/
def decodeTableWord (nbits w : Nat) : Option Instr :=
  match decode (bytesLE 4 (BitVec.ofNat 32 (w % 2 ^ nbits))) with
  | .ok (i, _) => some i
  | .error _ => none

end Sys2Proof
end

