-- ==== Sys2Proof/Machine/Operands.lean ====
section
/-!
DEFINITION. The values the immediate operands stand for on the hart (30_encoding.md, rules R57 to R59).
The register operands are read by `readReg` (Machine/Ops.lean); there is no other operand form (R42, R70).
-/

namespace Sys2Proof.Machine

/-- The U immediate: `imm20 ++ 0b000000000000` (R57, R94). -/
def upperValue (imm20 : Imm20) : Word := imm20 ++ 0#12

/-- The I immediate and the S offset: `sext_32(imm12)` (R58, R59). -/
def lowerValue (imm12 : Imm12) : Word := sext32 imm12

/-- The effective address of a store: `x[rs1] + sext_32(immS)`, modulo 2^32 (R40, R96). -/
def effectiveAddress (base : Word) (imm12 : Imm12) : Word := base + lowerValue imm12

/-- `a[1:0] = 0b00`: a multiple of 4 (R43, R93, R96). -/
def wordAligned (a : Word) : Bool := slice a 0 2 == 0

end Sys2Proof.Machine
end

