-- ==== Sys2Proof/Config.lean ====
section
/-!
DEFINITION. The implementation parameters of rule R8. The fixed ones are constants here (the opcode and
function-code constants stand in Machine/Bits.lean, beside the field layout they belong to). The OPEN
ones are "an argument of the model" (R8): they are the fields of `Params`, a record that `State` carries
and that no instruction changes, so that a statement about every state is a statement about every value
of them. The spec leaves no RESULT undefined, so there is no free value (no opaque constant) here.
-/

namespace Sys2Proof

/-- `XLEN` (R8). -/
def xlen : Nat := 32
/-- `ILEN` (R8). -/
def ilen : Nat := 32
/-- `NREG` (R8). -/
def nreg : Nat := 32
/-- `REGW` (R8). -/
def regw : Nat := 5
/-- `STUB_WORDS` (R8): "exactly 5 Instruction Words". -/
def stubWords : Nat := 5
/-- `STUB_BYTES` (R8): `5 * 4 = 20` bytes. -/
def stubBytes : Nat := 20
/-- `ZERO_REG` (R8): the register the source calls `zero_register`. -/
def zeroReg : RegId := 0
/-- `SCRATCH_A` (R8): the default of the port `st_scratch_a`, register 5 (90_conflicts.md C2). -/
def scratchA : RegId := 5
/-- `SCRATCH_B` (R8): the default of the port `st_scratch_b`, register 6 (90_conflicts.md C2). -/
def scratchB : RegId := 6
/-- `COMPLETION_VALUE` (R8): the value the stub stores. -/
def completionValue : Word := 1

/-- The values of the OPEN parameter `MISALIGNED_STORE` (R8, R43, 92_eei_decisions.md D11). -/
inductive MisalignedStore where
  /-- the model default: a misaligned SW ends the run, memory unchanged -/
  | fault
  /-- the four bytes of a misaligned SW are written as R41 says -/
  | perform
  deriving DecidableEq, Repr

/-- The values of the OPEN parameter `TARGET_PRIV` (R8, R111), which no rule reads.
PRESUMED (log entry 8): the spec does not list the modes; these are the RISC-V family's. -/
inductive Privilege where
  | user
  | supervisor
  | machine
  deriving DecidableEq, Repr

/-- A closed range of byte addresses, `lo` to `hi`. -/
structure Region where
  lo : Nat
  hi : Nat
  deriving DecidableEq, Repr

/-- The OPEN parameters of R8 and R105, fixed for one platform. `admitted` is the predicate
`STORE_ADMITTED : Bits32 -> Bool` of R105 as plain data: the address ranges a store may go to. -/
structure Params where
  /-- `MISALIGNED_STORE` (R8, R43) -/
  misalignedStore : MisalignedStore
  /-- `STORE_ADMITTED` (R105), as ranges (log entry 6) -/
  admitted : List Region
  /-- `TOHOST` as compiled into the harness (R8, R112) -/
  tohost : Word
  /-- `TARGET_PRIV` (R8, R111) -/
  targetPriv : Privilege
  deriving DecidableEq, Repr

/-- The parameters of the machine at reset: `MISALIGNED_STORE = fault` is the model default of R8.
DESIGN CHOICE (log entries 6, 7, 8): the spec leaves the other three OPEN; here every address may be
stored to, tohost is the example address of R8, the mode is machine mode. -/
def Params.atReset : Params :=
  { misalignedStore := .fault
    admitted := [⟨0, 0xFFFFFFFF⟩]
    tohost := 0x80001000
    targetPriv := .machine }

end Sys2Proof
end

