-- ==== Sys2Proof/Machine/Memory.lean ====
section
/-!
DEFINITION. The consuming hart's memory (20_memory.md, rules R30, R40 to R43): one byte-addressed space of
2^32 bytes, held as a list of cells in ONE canonical form: addresses strictly rising and below 2^32, no
cell equal to what an unlisted address reads as. Wider accesses are built from bytes here alone, so the
byte order (R41) and the wrap of an address (R40) are decided once.
-/

namespace Sys2Proof.Machine

/-- The memory's contents: the listed cells. -/
abbrev Memory := List Host.Cell

/-- What an address that is not listed reads as. DESIGN CHOICE (log entry 4): the spec gives memory no
contents at the start ("unspecified", R115; "any value", I8). Every contents of the 2^32 bytes is some
list of cells, so a statement about every state is about every contents. -/
def unlistedByte : Byte := 0#8

/-- Read one byte. -/
def Memory.readByte : Memory → Nat → Byte
  | [], _ => unlistedByte
  | (k, b) :: m, a => if a = k then b else Memory.readByte m a

/-- Write one byte, keeping the canonical form. -/
def Memory.writeByte : Memory → Nat → Byte → Memory
  | [], a, v => if v = unlistedByte then [] else [(a, v)]
  | (k, b) :: m, a, v =>
    if a < k then (if v = unlistedByte then (k, b) :: m else (a, v) :: (k, b) :: m)
    else if a = k then (if v = unlistedByte then m else (a, v) :: m)
    else (k, b) :: Memory.writeByte m a v

/-- The canonical form. -/
def Memory.wf : Memory → Bool
  | [] => true
  | (k, b) :: m => decide (k < 2 ^ 32) && (b != unlistedByte) && m.all (fun c => k < c.1) && Memory.wf m

/-- The bytes at `addr`, `addr + 1`, … (addresses modulo 2^32, R40, R41). -/
def Memory.loadBytes (m : Memory) (addr : Word) : Nat → List Byte
  | 0 => []
  | n + 1 => m.readByte addr.toNat :: Memory.loadBytes m (addr + 1) n

/-- Write a list of bytes to `addr`, `addr + 1`, … (addresses modulo 2^32, R40, R41). -/
def Memory.storeBytes (m : Memory) (addr : Word) : List Byte → Memory
  | [] => m
  | b :: rest => Memory.storeBytes (m.writeByte addr.toNat b) (addr + 1) rest

/-- `MemRead(addr, n)` (R12, R41). -/
def memRead (m : Memory) (addr : Word) (n : Nat) : BitVec (8 * n) :=
  ofBytesLE (8 * n) (m.loadBytes addr n)

/-- `MemWrite(addr, n, v)` (R12, R41): `v[8j+7:8j]` goes to byte address `addr + j`. -/
def memWrite (m : Memory) (addr : Word) (n : Nat) (v : BitVec (8 * n)) : Memory :=
  m.storeBytes addr (bytesLE n v)

end Sys2Proof.Machine
end

