-- ==== Sys2Proof/Machine/State.lean ====
section
/-!
DEFINITION. The state of the machine (10_state.md section 3, rules R27 to R34): the consuming hart's
registers, program counter, memory and run status, and the platform's OPEN parameters. The encoder block
itself holds no state (R15, R16). The hart has no flags (R31), no control or status registers (R32), no
interrupt state (R107), no timer, counter or power state (R113).
-/

namespace Sys2Proof.Machine

/-- Why a run halted (R34). -/
inductive HaltReason where
  /-- an EBREAK was executed (R97) -/
  | breakpoint
  deriving DecidableEq, Repr

/-- The reasons of `Faulted(reason)` (R104, R106). -/
inductive FaultReason where
  | misalignedStore (ea : Word)
  | accessFault (ea : Word)
  deriving DecidableEq, Repr

/-- The reasons of `Refused(reason)` (R93, R99, R106). -/
inductive RefusedReason where
  | misalignedFetch (pc : Word)
  | notProduced (w : Word)
  deriving DecidableEq, Repr

/-- The run status (R34). "Once the status leaves `Running` it never changes again." -/
inductive Status where
  | running
  /-- the EBREAK was executed at this address -/
  | halted (reason : HaltReason) (pc : Word)
  | faulted (reason : FaultReason)
  | refused (reason : RefusedReason)
  deriving DecidableEq, Repr

/-- The 32 general registers of 32 bits (R27). The slot of `x0` is never read and stays 0. -/
abbrev Regs := Vector Word 32

/-- The whole state. -/
structure State where
  /-- `x0` to `x31` (R27); read and written only through `readReg` and `writeReg` -/
  regs : Regs
  /-- the byte address of the instruction being executed (R29) -/
  pc : Word
  /-- the memory of 2^32 bytes, tohost included (R30, R40) -/
  mem : Memory
  /-- the run status (R34) -/
  status : Status
  /-- the OPEN parameters of R8 and R105: constant through every step (log entry 5) -/
  params : Params
  deriving DecidableEq, Repr

/-- Why a step gives no next state although the spec's machine has stopped for a reason it names: "A
state whose status is not `Running` has no step" (R93); "`stuck`: the status is final" (I20). -/
inductive Fault where
  /-- raised by `step` alone, in a state whose status is `Halted`: the intended end of a run; safe -/
  | runHalted (reason : HaltReason) (pc : Word)
  /-- raised by `step` alone, in a state whose status is `Faulted`: the run ended at an SW; safe -/
  | runFaulted (reason : FaultReason)
  deriving DecidableEq, Repr

/-- Why the model has no meaning to give. -/
inductive Refusal where
  /-- an instruction that has no meaning yet: no arm of `exec` answers it; safe -/
  | notModelled (mnemonic : String)
  /-- raised by `step` alone, in a state whose status is `Refused`: the run reached a word or a fetch
  that the spec gives no meaning (R93, R99); safe -/
  | runRefused (reason : RefusedReason)
  deriving DecidableEq, Repr

/-- The machine before any program is placed (R115). `x0 = 0` and status `Running` are the spec's; every
other value is "unspecified" there. DESIGN CHOICE: registers 0 (log entry 2), pc `0x80000000` (entry 3),
memory with nothing listed (entry 4), parameters as `Params.atReset` (entries 6 to 8). -/
def State.reset : State :=
  { regs := Vector.replicate 32 0
    pc := 0x80000000
    mem := []
    status := .running
    params := Params.atReset }

end Sys2Proof.Machine
end

