-- ==== Sys2Proof/Machine/Ops.lean ====
section
/-!
DEFINITION. The named operations the meanings share: registers (R12, R27), program counter (R98), the
store and its two checks (R43, R96, R105, R108), the outcomes that end a run (R34, R97, R104, R106), the
fetch (R50, R93), and what the harness observes (R112).
-/

namespace Sys2Proof.Machine

/-! ### Registers (R12, R27) -/

/-- The slot of a register. -/
def regIndex (r : RegId) : Fin 32 := ⟨r.toNat, r.isLt⟩

/-- `x[i]`: "`x[0]` reads 0" (R12). -/
def readReg (s : State) (r : RegId) : Word := if r = 0#5 then 0#32 else s.regs.get (regIndex r)

/-- `x[i] <- v`, "discarded when i = 0" (R12). -/
def writeReg (s : State) (r : RegId) (v : Word) : State :=
  if r = 0#5 then s else { s with regs := s.regs.set (regIndex r) v }

/-! ### Program counter (R29, R98) -/

/-- `pc <- pc + 4`, modulo 2^32. -/
def advancePc (s : State) : State := { s with pc := s.pc + 4 }

/-! ### Exceptions (R104, R106, R109) -/

/-- The synchronous exceptions the four instructions can raise, with the value recorded (R104). -/
inductive Exception where
  /-- EBREAK, always; records the pc of the EBREAK -/
  | breakpoint (pc : Word)
  /-- SW; records the effective address -/
  | misalignedStore (ea : Word)
  /-- SW; records the effective address -/
  | accessFault (ea : Word)
  deriving DecidableEq, Repr

/-- The column "value recorded" of R104. -/
def recordedValue : Exception → Word
  | .breakpoint pc => pc
  | .misalignedStore ea => ea
  | .accessFault ea => ea

/-- The column "RISC-V cause code" of R104: general knowledge of the spec (G21), written nowhere by the
model (R104, R109). -/
def causeCode : Exception → Nat
  | .breakpoint _ => 3
  | .misalignedStore _ => 6
  | .accessFault _ => 7

/-- The column "model outcome" of R104. -/
def outcomeStatus : Exception → Status
  | .breakpoint pc => .halted .breakpoint pc
  | .misalignedStore ea => .faulted (.misalignedStore ea)
  | .accessFault ea => .faulted (.accessFault ea)

/-- End the run with a status; nothing else changes (R34). -/
def endRun (st : Status) (s : State) : State := { s with status := st }

/-- TAKING AN EXCEPTION, the one shared operation: the run ends with the outcome of R104; "pc and all
general registers and memory unchanged" (R109), no trap state is recorded and no handler runs (R106). The
effects of the hart's trap entry, parameter `TRAP_ENTRY`, are the spec's "unmodelled" (log entry 10).
There is no return from an exception (R110). -/
def takeException (e : Exception) (s : State) : State := endRun (outcomeStatus e) s

/-! ### Stores (R43, R96, R105) -/

/-- A region holds an address. -/
def regionHolds (r : Region) (a : Word) : Bool := decide (r.lo ≤ a.toNat) && decide (a.toNat ≤ r.hi)

/-- `STORE_ADMITTED(ea)`: the platform's predicate (R105). -/
def storeAdmitted (p : Params) (ea : Word) : Bool := p.admitted.any (fun r => regionHolds r ea)

/-- The exception a store to `ea` raises, if any: alignment is checked first, then admission (R96,
R108). -/
def storeException (p : Params) (ea : Word) : Option Exception :=
  if !wordAligned ea && decide (p.misalignedStore = .fault) then some (.misalignedStore ea)
  else if !storeAdmitted p ea then some (.accessFault ea)
  else none

/-- `MemWrite(ea, 4, v)` on the state (R41, R96). -/
def writeWord (s : State) (ea v : Word) : State := { s with mem := memWrite s.mem ea 4 v }

/-- A store of a word, with its checks, and the advance of the pc when it completes (R96, R98). -/
def storeWord (s : State) (ea v : Word) : State :=
  match storeException s.params ea with
  | some e => takeException e s
  | none => advancePc (writeWord s ea v)

/-! ### Fetch (R50, R93) -/

/-- `MemRead(pc, 4)` (R50). -/
def fetchWord (s : State) : Word := memRead s.mem s.pc 4

/-- Fetch and decode: refused where the pc is not a multiple of 4, and where the word is one the block
never produces (R93, R99). -/
def fetch (s : State) : Except RefusedReason Instr :=
  if wordAligned s.pc then
    match decodeWord (fetchWord s) with
    | some i => .ok i
    | none => .error (.notProduced (fetchWord s))
  else .error (.misalignedFetch s.pc)

/-- The state in which `fetch` finds exactly the instruction word `w`: the pc on a word boundary, the
status `Running`, and the word at the pc in the byte order of R36 (log entry 16). -/
def placeFetchWord (s : State) (w : Word) : State :=
  let p := s.pc &&& 0xFFFFFFFC
  { s with pc := p, status := .running, mem := memWrite s.mem p 4 w }

/-! ### What the harness observes (R44, R102, R112) -/

/-- The word at the tohost location compiled into the harness (R112). -/
def tohostWord (s : State) : Word := memRead s.mem s.params.tohost 4

end Sys2Proof.Machine
end

