-- ==== Sys2Proof/Machine/Arithmetic.lean ====
section
/-! DEFINITION. The meanings of the register-writing instructions LUI (R94) and ADDI (R95). -/

namespace Sys2Proof.Machine

/-- LUI (R94): `x[rd] <- imm20 ++ 0b000000000000; pc <- pc + 4`. -/
def execLui (rd : RegId) (imm20 : Imm20) (s : State) : Host.Outcome State Fault Refusal :=
  .next (advancePc (writeReg s rd (upperValue imm20)))

/-- ADDI (R95): `x[rd] <- x[rs1] + sext_32(immI)` modulo 2^32, `x[rs1]` read before `x[rd]` is written;
`pc <- pc + 4`. -/
def execAddi (rd rs1 : RegId) (imm12 : Imm12) (s : State) : Host.Outcome State Fault Refusal :=
  .next (advancePc (writeReg s rd (readReg s rs1 + lowerValue imm12)))

end Sys2Proof.Machine
end

