-- ==== Sys2Proof/Machine/Store.lean ====
section
/-! DEFINITION. The meaning of the store SW (R96). -/

namespace Sys2Proof.Machine

/-- SW (R96): the effective address is `x[rs1] + sext_32(immS)`, the value is `x[rs2]`. -/
def execSw (rs2 rs1 : RegId) (imm12 : Imm12) (s : State) : Host.Outcome State Fault Refusal :=
  .next (storeWord s (effectiveAddress (readReg s rs1) imm12) (readReg s rs2))

end Sys2Proof.Machine
end

