-- ==== Sys2Proof/Machine/System.lean ====
section
/-! DEFINITION. The meaning of the system instruction EBREAK (R97). -/

namespace Sys2Proof.Machine

/-- EBREAK (R97): `raise Breakpoint(pc); status <- Halted(Breakpoint, pc)`; pc, general registers and
memory are not changed. -/
def execEbreak (s : State) : Host.Outcome State Fault Refusal :=
  .next (takeException (.breakpoint s.pc) s)

end Sys2Proof.Machine
end

