-- ==== Sys2Proof/Machine/Dispatch.lean ====
section
/-! DEFINITION. The meaning of an instruction: one arm for each constructor (R93). -/

namespace Sys2Proof.Machine

def exec (i : Instr) (s : State) : Host.Outcome State Fault Refusal :=
  match i with
  | .lui rd imm20 => Sys2Proof.Machine.execLui rd imm20 s
  | .addi rd rs1 imm12 => Sys2Proof.Machine.execAddi rd rs1 imm12 s
  | .sw rs2 rs1 imm12 => Sys2Proof.Machine.execSw rs2 rs1 imm12 s
  | .ebreak => Sys2Proof.Machine.execEbreak s

end Sys2Proof.Machine
end

