-- ==== Sys2Proof/Machine/Step.lean ====
section
/-!
DEFINITION. One step of the hart (R93), and the state the host's question about one instruction starts
from.
-/

namespace Sys2Proof.Machine

/-- One step (R93): from `Running`, fetch, decode and execute, or end the run `Refused` where the fetch
or the word has no meaning ("the step sets status `Refused(NotProduced(w))`, a mark the state keeps",
R99). A state whose status is not `Running` has no step: the answer names the final status (log entry
1). -/
def step (s : State) : Host.Outcome State Fault Refusal :=
  match s.status with
  | .running =>
    match fetch s with
    | .ok i => exec i s
    | .error r => .next (endRun (.refused r) s)
  | .halted r p => .fault (.runHalted r p)
  | .faulted r => .fault (.runFaulted r)
  | .refused r => .refused (.runRefused r)

/-- The state whose very next step runs the instruction whose table bits are `w` (log entry 16). -/
def State.withFetchWord (s : State) (nbits w : Nat) : State :=
  placeFetchWord s (BitVec.ofNat 32 (w % 2 ^ nbits))

end Sys2Proof.Machine
end

