-- ==== Sys2Proof/Machine/Splitter.lean ====
section
/-!
DEFINITION. The unit `SPLIT` (40_splitter.md, rules R73 to R78): a 32-bit address to the upper immediate
and the signed lower immediate of the load-address idiom. Total, no state, no error (R24, R73).
-/

namespace Sys2Proof

/-- The two output ports of `SPLIT` (R19): `lo12` is the two's-complement pattern. -/
structure Split where
  hi20 : Imm20
  lo12 : Imm12
  deriving DecidableEq, Repr

namespace Machine

/-- `SPLIT` (R73): `hi20 = (address + 0x800)[31:12]` modulo 2^32, `lo12 = address[11:0]`. -/
def split (addr : Word) : Split :=
  { hi20 := slice (addr + 0x00000800) 12 20
    lo12 := slice addr 0 12 }

/-- The incrementer form of R78: a 20-bit incrementer with carry-in `sp_addr[11]`, beside a 12-bit
pass-through. -/
def splitIncrementer (addr : Word) : Split :=
  { hi20 := slice addr 12 20 + (slice addr 11 1).setWidth 20
    lo12 := slice addr 0 12 }

/-- The value the load-address idiom computes from a pair (R57, R58, R74):
`(zext_32(hi20) << 12) + sext_32(lo12)`. -/
def joined (p : Split) : Word := (zext32 p.hi20 <<< 12) + sext32 p.lo12

/-- `split` on an integer address, masked first (R25). -/
def splitValue (addr : Int) : Split := split (mask 32 addr)

end Machine
end Sys2Proof
end

