-- ==== Sys2Proof/Machine/Assembler.lean ====
section
/-!
DEFINITION. Assembler spelling (rules R28, R70 to R72) and the pseudo-instructions of R71. Out of the
machine's step; the block's contract is the bits (N4, N16), and the spelling is the spec's choice D23.
PRESUMED (log entry 20): lower-case hexadecimal digits with no leading zeros. PRESUMED (log entry 26): which
pseudo-instruction is printed where several name one word.
-/

namespace Sys2Proof

/-- The pseudo-instructions of R71. -/
inductive Pseudo where
  /-- `li rd, imm` with a 12-bit immediate -/
  | li (rd : RegId) (imm12 : Imm12)
  /-- `mv rd, rs` -/
  | mv (rd rs : RegId)
  /-- `nop` -/
  | nop
  /-- `la rd, imm32` (also `li` for a full 32-bit value) -/
  | la (rd : RegId) (imm32 : Word)
  deriving DecidableEq, Repr

namespace Machine

/-- The instructions a pseudo-instruction names (R71). -/
def expandPseudo : Pseudo → List Instr
  | .li rd imm12 => [.addi rd 0 imm12]
  | .mv rd rs => [.addi rd rs 0]
  | .nop => [.addi 0 0 0]
  | .la rd imm32 => [.lui rd (split imm32).hi20, .addi rd rd (split imm32).lo12]

/-- A one-word pseudo-instruction that names an instruction, if any (R71). PRESUMED (log entry 26): where
several name one word, which R71 leaves open, the one printed is `nop` before `li` (the source is `x0`)
before `mv` (the immediate is 0). -/
def pseudoOf : Instr → Option Pseudo
  | .addi rd rs1 imm12 =>
    if rd = 0#5 ∧ rs1 = 0#5 ∧ imm12 = 0#12 then some .nop
    else if rs1 = 0#5 then some (.li rd imm12)
    else if imm12 = 0#12 then some (.mv rd rs1)
    else none
  | .lui _ _ => none
  | .sw _ _ _ => none
  | .ebreak => none

/-- A register's name: its alias of R28 where the spec gives one, `xN` otherwise (R70). -/
def regName (r : RegId) : String :=
  if r = 0 then "zero"
  else if r = 5 then "t0"
  else if r = 6 then "t1"
  else if r = 10 then "a0"
  else if r = 11 then "a1"
  else "x" ++ Nat.repr (uint r)

/-- A signed decimal (R70). -/
def signedDecimal (n : Int) : String :=
  if n < 0 then "-" ++ Nat.repr n.natAbs else Nat.repr n.natAbs

/-- A hexadecimal literal (R70). -/
def hexLiteral (n : Nat) : String := "0x" ++ String.ofList (Nat.toDigits 16 n)

/-- The assembler spelling of R70. -/
def spelling : Instr → String
  | .lui rd imm20 => "lui " ++ regName rd ++ ", " ++ hexLiteral (uint imm20)
  | .addi rd rs1 imm12 =>
    "addi " ++ regName rd ++ ", " ++ regName rs1 ++ ", " ++ signedDecimal (sint imm12)
  | .sw rs2 rs1 imm12 =>
    "sw " ++ regName rs2 ++ ", " ++ signedDecimal (sint imm12) ++ "(" ++ regName rs1 ++ ")"
  | .ebreak => "ebreak"

/-- The GNU disassembler's spelling of R71: no space after a comma, pseudo-instructions where it has
them. -/
def gnuSpelling (i : Instr) : String :=
  match pseudoOf i with
  | some .nop => "nop"
  | some (.li rd imm12) => "li " ++ regName rd ++ "," ++ signedDecimal (sint imm12)
  | some (.mv rd rs) => "mv " ++ regName rd ++ "," ++ regName rs
  | _ =>
    match i with
    | .lui rd imm20 => "lui " ++ regName rd ++ "," ++ hexLiteral (uint imm20)
    | .addi rd rs1 imm12 =>
      "addi " ++ regName rd ++ "," ++ regName rs1 ++ "," ++ signedDecimal (sint imm12)
    | .sw rs2 rs1 imm12 =>
      "sw " ++ regName rs2 ++ "," ++ signedDecimal (sint imm12) ++ "(" ++ regName rs1 ++ ")"
    | .ebreak => "ebreak"

end Machine
end Sys2Proof
end

