-- ==== Sys2Proof/Machine/StubBuilder.lean ====
section
/-!
DEFINITION. The unit `STUB` (42_stub_builder.md, rules R86 to R92): the five words of the exit stub and
their 20-byte little-endian image, by the functions of `SPLIT` and the encoder units (R85). Total, no
state, no error (R86).
-/

namespace Sys2Proof

/-- The output ports of `STUB` (R23): image byte `k` stands at `st_bytes[8k+7:8k]`. -/
structure StubOut where
  word0 : Word
  word1 : Word
  word2 : Word
  word3 : Word
  word4 : Word
  bytes : BitVec 160
  deriving DecidableEq, Repr

namespace Machine

/-- The five words in execution order (R86, R91). -/
def stubWordList (addr : Word) (a b : RegId) : List Word :=
  [ encU a (split addr).hi20,
    encI a a (split addr).lo12,
    encI b zeroReg 0x001,
    encS b a 0x000,
    encSys ]

/-- The 20-byte image: the images of the words in order, with no padding (R37, R88). -/
def stubImage (addr : Word) (a b : RegId) : List Byte :=
  (stubWordList addr a b).flatMap (bytesLE 4)

/-- `STUB` (R86, R88): `build_exit_stub(tohost_address, scratch_a, scratch_b)`. -/
def stub (addr : Word) (a b : RegId) : StubOut :=
  { word0 := encU a (split addr).hi20
    word1 := encI a a (split addr).lo12
    word2 := encI b zeroReg 0x001
    word3 := encS b a 0x000
    word4 := encSys
    bytes := ofBytesLE 160 (stubImage addr a b) }

/-- Byte `k` of `st_bytes` (R23). -/
def stubByte (o : StubOut) (k : Nat) : Byte := slice o.bytes (8 * k) 8

/-- The stub with the default scratch registers 5 and 6 (R8, R89). -/
def stubDefault (addr : Word) : StubOut := stub addr scratchA scratchB

/-- `build_exit_stub` on integers, each argument masked first (R25). -/
def stubValue (addr a b : Int) : StubOut := stub (mask 32 addr) (mask 5 a) (mask 5 b)

end Machine
end Sys2Proof
end

