-- ==== Sys2Proof/Machine/Block.lean ====
section
/-!
DEFINITION. The exit-stub encoder block as hardware: its input and output ports by name and width (rules
R18 to R23) and the one combinational function from the inputs to the outputs (R11, R15). The block holds
no state (R15, R16), so nothing of it stands in `State`; its inputs are driven from outside (R17), and
`BlockArgs` are such inputs given as unbounded integers, masked to the port widths (R25).
-/

namespace Sys2Proof

/-- All input ports of the six units (R19 to R23). `ENC_SYS` has none. -/
structure BlockIn where
  spAddr : Word
  uRd : RegId
  uImm20 : Imm20
  iRd : RegId
  iRs1 : RegId
  iImm12 : Imm12
  sRs2 : RegId
  sRs1 : RegId
  sImm12 : Imm12
  stAddr : Word
  stScratchA : RegId
  stScratchB : RegId
  deriving DecidableEq, Repr

/-- All output ports of the six units (R19 to R23). -/
structure BlockOut where
  spHi20 : Imm20
  spLo12 : Imm12
  uWord : Word
  iWord : Word
  sWord : Word
  sysWord : Word
  stWord0 : Word
  stWord1 : Word
  stWord2 : Word
  stWord3 : Word
  stWord4 : Word
  stBytes : BitVec 160
  deriving DecidableEq, Repr

/-- The input ports as unbounded integers (R25). -/
structure BlockArgs where
  spAddr : Int
  uRd : Int
  uImm20 : Int
  iRd : Int
  iRs1 : Int
  iImm12 : Int
  sRs2 : Int
  sRs1 : Int
  sImm12 : Int
  stAddr : Int
  stScratchA : Int
  stScratchB : Int
  deriving DecidableEq, Repr

namespace Machine

/-- The block: "All of them compute continuously and simultaneously" (R18), every output a function of
the current inputs alone (R15). -/
def block (i : BlockIn) : BlockOut :=
  { spHi20 := (split i.spAddr).hi20
    spLo12 := (split i.spAddr).lo12
    uWord := encU i.uRd i.uImm20
    iWord := encI i.iRd i.iRs1 i.iImm12
    sWord := encS i.sRs2 i.sRs1 i.sImm12
    sysWord := encSys
    stWord0 := (stub i.stAddr i.stScratchA i.stScratchB).word0
    stWord1 := (stub i.stAddr i.stScratchA i.stScratchB).word1
    stWord2 := (stub i.stAddr i.stScratchA i.stScratchB).word2
    stWord3 := (stub i.stAddr i.stScratchA i.stScratchB).word3
    stWord4 := (stub i.stAddr i.stScratchA i.stScratchB).word4
    stBytes := (stub i.stAddr i.stScratchA i.stScratchB).bytes }

/-- Each argument masked to its port width, before any other computation (R25). -/
def portsOfArgs (x : BlockArgs) : BlockIn :=
  { spAddr := mask 32 x.spAddr
    uRd := mask 5 x.uRd
    uImm20 := mask 20 x.uImm20
    iRd := mask 5 x.iRd
    iRs1 := mask 5 x.iRs1
    iImm12 := mask 12 x.iImm12
    sRs2 := mask 5 x.sRs2
    sRs1 := mask 5 x.sRs1
    sImm12 := mask 12 x.sImm12
    stAddr := mask 32 x.stAddr
    stScratchA := mask 5 x.stScratchA
    stScratchB := mask 5 x.stScratchB }

/-- The value-level block (R11, R25). -/
def blockValue (x : BlockArgs) : BlockOut := block (portsOfArgs x)

end Machine
end Sys2Proof
end

