-- ==== Sys2Proof/Machine/Boot.lean ====
section
/-!
DEFINITION. How the exit stub comes to run on the hart (R38, R50, R100, R116): its 20-byte image stands in
memory at `P` and control reaches `P`, "by means outside the block".
-/

namespace Sys2Proof.Machine

/-- The image of `STUB(T, a, b)` stands at addresses `P` to `P + 19` (R88, R100). -/
def stubPlaced (m : Memory) (p t : Word) (a b : RegId) : Bool := m.loadBytes p 20 == stubImage t a b

/-- Items (3) and (5) of R116: the image is placed at `P`, and control reaches `P`. -/
def placeStub (s : State) (p t : Word) (a b : RegId) : State :=
  { s with mem := s.mem.storeBytes p (stubImage t a b), pc := p, status := .running }

/-- Four bytes from `T` and twenty bytes from `P` have no address in common, addresses taken modulo 2^32
(R40, R50): the tohost word lies outside the stub image. -/
abbrev noOverlap (t p : Word) : Prop :=
  ∀ i, i < 4 → ∀ j, j < 20 → t + BitVec.ofNat 32 i ≠ p + BitVec.ofNat 32 j

end Sys2Proof.Machine
end

