-- ==== Sys2Proof/Safety.lean ====
section
/-!
DEFINITION. What counts as a good state and a good run, in the terms the statements use: the invariant
that every step keeps, the premises of the stub's claim (R90, R100), and the end of a run that a claim of
success may name (R102).
-/

namespace Sys2Proof.Machine

/-- The slot of the hard-wired register holds the value it reads as (R27). -/
abbrev X0SlotZero (s : State) : Prop := s.regs.get 0 = 0#32

/-- The instruction at the pc is a store whose effective address is `ea`, in the state as it stands. -/
def StoreAtPc (s : State) (ea : Word) : Prop :=
  ∃ rs2 rs1 imm12, fetch s = .ok (.sw rs2 rs1 imm12) ∧ effectiveAddress (readReg s rs1) imm12 = ea

/-- A final status tells the truth about the state it ended in, which still shows the instruction that
ended the run (R97 and R98: pc, registers and memory are those of the EBREAK or the faulting SW; R93, R99:
those of the refused fetch or word). -/
def StatusTruthful (s : State) : Prop :=
  match s.status with
  | .running => True
  | .halted .breakpoint p => p = s.pc ∧ fetch s = .ok .ebreak
  | .faulted (.misalignedStore ea) =>
    StoreAtPc s ea ∧ wordAligned ea = false ∧ s.params.misalignedStore = .fault
  | .faulted (.accessFault ea) =>
    StoreAtPc s ea ∧ storeAdmitted s.params ea = false ∧
      (wordAligned ea = true ∨ s.params.misalignedStore = .perform)
  | .refused r => fetch s = .error r

/-- The invariant: memory is in its canonical form, `x0` is zero in its slot, and a final status is
truthful. -/
def Inv (s : State) : Prop := s.mem.wf = true ∧ X0SlotZero s ∧ StatusTruthful s

/-- The hart is at the entry of a stub: status `Running`, the pc at `P`, a multiple of 4, and the image of
`STUB(T, a, b)` at `P` to `P + 19` (R93, R100). -/
structure StubAtEntry (s : State) (p t : Word) (a b : RegId) : Prop where
  running : s.status = .running
  at_stub : s.pc = p
  aligned : p.toNat % 4 = 0
  placed : stubPlaced s.mem p t a b = true

/-- The premises of R100 (with R90 (a) to (d), R50 and R105): where the stub has its intended meaning.
R90 (e), that the stub's address is the harness's, is `t = s.params.tohost`, stated apart. -/
structure StubPremises (s : State) (p t : Word) (a b : RegId) : Prop where
  entry : StubAtEntry s p t a b
  a_ne_zero : a ≠ 0#5
  b_ne_zero : b ≠ 0#5
  distinct : a ≠ b
  target : t.toNat % 4 = 0 ∨ s.params.misalignedStore = .perform
  apart : noOverlap t p
  admitted : storeAdmitted s.params t = true

/-- The claim of success of R102: the run ended `Halted(Breakpoint, P+16)` with `MemRead(T, 4) = 1`. -/
def Signalled (s : State) (p t : Word) : Prop :=
  s.status = .halted .breakpoint (p + 16) ∧ memRead s.mem t 4 = completionValue

end Sys2Proof.Machine
end

