-- ==== Sys2Proof/Certificates/Slice0/Obligations.lean ====
section
/-!
DEFINITION. The statements for the provers. Each docstring names the rules of spec/ it rests on; where a
clause is the spec's own inference ("[derived …]"), decision ("[decision …]") or general knowledge, or the
model's choice, the docstring says so. A statement about a parameter of the platform (`State.params`) holds
for every value of it.
-/

open Sys2Proof Sys2Proof.Machine

/-! ### The splitter (40_splitter.md) -/

/-- R73: the two outputs of SPLIT, the signed value of `lo12`, and the source's concrete case. -/
def Obligations.SplitFollowsTheFormula : Prop :=
  (∀ addr : Word,
    (split addr).hi20.toNat = (addr.toNat + 0x800) % 2 ^ 32 / 4096 ∧
    (split addr).lo12.toNat = addr.toNat % 4096 ∧
    (split addr).lo12.toInt =
      if 0x800 ≤ addr.toNat % 4096 then (addr.toNat % 4096 : Int) - 0x1000
      else (addr.toNat % 4096 : Int)) ∧
  split 0x80001000 = ⟨0x80001, 0x000⟩

/-- R74: for all 32-bit addresses, `(hi20 << 12) + sign_extend(lo12) = address` modulo 2^32, and the
signed `lo12` lies in [-2048, 2047]. (R74 calls this "the source's contract"; only its proof there is marked
as derived. It is read modulo 2^32 as 90_conflicts.md C1 says.) -/
def Obligations.SplitRebuildsTheAddress : Prop :=
  ∀ addr : Word,
    ((split addr).hi20.setWidth 32 <<< 12) + (split addr).lo12.signExtend 32 = addr ∧
    -2048 ≤ (split addr).lo12.toInt ∧ (split addr).lo12.toInt ≤ 2047

/-- R75 (the spec's inference from R74): SPLIT's pair is the only one that rebuilds the address. -/
def Obligations.SplitPairIsUnique : Prop :=
  ∀ (addr : Word) (h : Imm20) (l : Imm12),
    (h.setWidth 32 <<< 12) + l.signExtend 32 = addr → split addr = ⟨h, l⟩

/-- R77 (the spec's inference): below `0xFFFFF800` the identity holds in unbounded integers; for the 2048
addresses from there on the integer sum is `uint(sp_addr) - 2^32`. -/
def Obligations.SplitExactIntegerSum : Prop :=
  ∀ addr : Word,
    ((split addr).hi20.toNat : Int) * 4096 + (split addr).lo12.toInt =
      if addr.toNat < 0xFFFFF800 then (addr.toNat : Int) else (addr.toNat : Int) - 2 ^ 32

/-- R78 (the spec's inference): the incrementer form gives the same pair for every address. -/
def Obligations.SplitIncrementerAgrees : Prop :=
  ∀ addr : Word, splitIncrementer addr = split addr

/-! ### The encoder (41_encoder.md, 30_encoding.md) -/

/-- R79: `u_word := u_imm20 ++ u_rd ++ 0b0110111` for all inputs, as a number; the masking of out-of-range
arguments in R79's corner cases; that `lui rd, 0` clears `rd` on the hart; the worked example. -/
def Obligations.UpperImmediateWordLayout : Prop :=
  (∀ (rd : RegId) (imm20 : Imm20),
    (encU rd imm20).toNat = imm20.toNat * 2 ^ 12 + rd.toNat * 2 ^ 7 + 0b0110111) ∧
  (∀ d i : Int, encUValue d i = encU (BitVec.ofInt 5 d) (BitVec.ofInt 20 i)) ∧
  encUValue 37 0x80001 = encU 5 0x80001 ∧ encUValue 5 0x180001 = encU 5 0x80001 ∧
  encUValue 5 (-1) = encU 5 0xFFFFF ∧
  (∀ (rd : RegId) (s : State), ∃ t, exec (.lui rd 0) s = .next t ∧ readReg t rd = 0#32) ∧
  encU 5 0x80001 = 0x800012B7

/-- R80: `i_word := i_imm12 ++ i_rs1 ++ 0b000 ++ i_rd ++ 0b0010011` for all inputs, as a number; the
masking of R80's corner cases; the canonical NOP; the two worked examples. -/
def Obligations.AddImmediateWordLayout : Prop :=
  (∀ (rd rs1 : RegId) (imm12 : Imm12),
    (encI rd rs1 imm12).toNat =
      imm12.toNat * 2 ^ 20 + rs1.toNat * 2 ^ 15 + 0b000 * 2 ^ 12 + rd.toNat * 2 ^ 7 + 0b0010011) ∧
  (∀ d r i : Int, encIValue d r i = encI (BitVec.ofInt 5 d) (BitVec.ofInt 5 r) (BitVec.ofInt 12 i)) ∧
  (∀ rd rs1 : Int,
    immIOf (encIValue rd rs1 (-1)) = 0xFFF ∧ immIOf (encIValue rd rs1 (-2048)) = 0x800 ∧
    immIOf (encIValue rd rs1 2047) = 0x7FF ∧ immIOf (encIValue rd rs1 4096) = 0x000 ∧
    immIOf (encIValue rd rs1 2048) = 0x800 ∧ encIValue rd rs1 2048 = encIValue rd rs1 (-2048)) ∧
  encI 0 0 0x000 = 0x00000013 ∧ encI 5 5 0x000 = 0x00028293 ∧ encI 6 0 0x001 = 0x00100313

/-- R81: `s_word := s_imm12[11:5] ++ s_rs2 ++ s_rs1 ++ 0b010 ++ s_imm12[4:0] ++ 0b0100011` for all inputs,
as a number; the argument order, the offset split and the worked example of R81. -/
def Obligations.StoreWordLayout : Prop :=
  (∀ (rs2 rs1 : RegId) (imm12 : Imm12),
    (encS rs2 rs1 imm12).toNat =
      imm12.toNat / 2 ^ 5 * 2 ^ 25 + rs2.toNat * 2 ^ 20 + rs1.toNat * 2 ^ 15 + 0b010 * 2 ^ 12 +
        imm12.toNat % 2 ^ 5 * 2 ^ 7 + 0b0100011) ∧
  (∀ r b i : Int, encSValue r b i = encS (BitVec.ofInt 5 r) (BitVec.ofInt 5 b) (BitVec.ofInt 12 i)) ∧
  encS 6 5 0x000 = 0x0062A023 ∧ encS 5 6 0x000 = 0x00532023 ∧
  encS 1 2 0x01F = 0x00112FA3 ∧ encS 1 2 0x020 = 0x02112023 ∧ encSValue 31 31 (-1) = 0xFFFFAFA3

/-- R82: the breakpoint word is the constant, and its serialization. -/
def Obligations.BreakpointWordIsConstant : Prop :=
  encSys = 0x00100073 ∧ bytesLE 4 encSys = [0x73, 0x00, 0x10, 0x00]

/-- R65 and R83 (the spec's inferences): every field of a packed word reads back, the fixed fields hold
their fixed values for all inputs, and the classifier returns the unit's class. -/
def Obligations.EncoderFieldsReadBack : Prop :=
  (∀ (rd : RegId) (imm20 : Imm20),
    rdOf (encU rd imm20) = rd ∧ immUOf (encU rd imm20) = imm20 ∧
    opcodeOf (encU rd imm20) = 0b0110111 ∧ classify (encU rd imm20) = .lui) ∧
  (∀ (rd rs1 : RegId) (imm12 : Imm12),
    rdOf (encI rd rs1 imm12) = rd ∧ rs1Of (encI rd rs1 imm12) = rs1 ∧
    immIOf (encI rd rs1 imm12) = imm12 ∧ funct3Of (encI rd rs1 imm12) = 0b000 ∧
    opcodeOf (encI rd rs1 imm12) = 0b0010011 ∧ classify (encI rd rs1 imm12) = .addi) ∧
  (∀ (rs2 rs1 : RegId) (imm12 : Imm12),
    rs2Of (encS rs2 rs1 imm12) = rs2 ∧ rs1Of (encS rs2 rs1 imm12) = rs1 ∧
    immSOf (encS rs2 rs1 imm12) = imm12 ∧ funct3Of (encS rs2 rs1 imm12) = 0b010 ∧
    opcodeOf (encS rs2 rs1 imm12) = 0b0100011 ∧ classify (encS rs2 rs1 imm12) = .sw) ∧
  classify encSys = .ebreak

/-- R64 (the spec's inference): each of ENC_U, ENC_I and ENC_S is a bijection from its input ports onto
its class, and the class of EBREAK is its one word. -/
def Obligations.EncodersAreBijectionsOntoClasses : Prop :=
  ∀ w : Word,
    (classify w = .lui ↔ ∃! p : RegId × Imm20, encU p.1 p.2 = w) ∧
    (classify w = .addi ↔ ∃! p : RegId × RegId × Imm12, encI p.1 p.2.1 p.2.2 = w) ∧
    (classify w = .sw ↔ ∃! p : RegId × RegId × Imm12, encS p.1 p.2.1 p.2.2 = w) ∧
    (classify w = .ebreak ↔ w = encSys)

/-- R61: a word is in a class exactly when `w & mask = match`, for the four rows of the table, and exactly
when its column "selected by" says; no word matches two rows; and a word that matches none is `NotProduced`. -/
def Obligations.ClassesFollowMaskAndMatch : Prop :=
  ∀ w : Word,
    (classify w = .lui ↔ w &&& 0x0000007F = 0x00000037) ∧
    (classify w = .addi ↔ w &&& 0x0000707F = 0x00000013) ∧
    (classify w = .sw ↔ w &&& 0x0000707F = 0x00002023) ∧
    (classify w = .ebreak ↔ w &&& 0xFFFFFFFF = 0x00100073) ∧
    (classify w = .lui ↔ opcodeOf w = 0x37) ∧
    (classify w = .addi ↔ opcodeOf w = 0x13 ∧ funct3Of w = 0) ∧
    (classify w = .sw ↔ opcodeOf w = 0x23 ∧ funct3Of w = 2) ∧
    (classify w = .ebreak ↔ w = 0x00100073) ∧
    (opcodeTable.filter fun r => r.matches w).length = if classify w = .notProduced then 0 else 1

/-- R25 and R10: a value-level call depends on its arguments modulo 2^N alone (N the port width), and an
in-range call's instruction reads back as the same call; an integer address, register or immediate given
to SPLIT, STUB or a port of the block counts as the port value whose unsigned value is the integer modulo
2^N. (That ports are field-wide is the spec's decision D4.) -/
def Obligations.ValueArgumentsAreMasked : Prop :=
  (∀ d i r b k l m : Int,
    (SrcCall.upperImmediate (d + 32 * k) (i + 2 ^ 20 * m)).masked = (SrcCall.upperImmediate d i).masked ∧
    (SrcCall.addImmediate (d + 32 * k) (r + 32 * l) (i + 4096 * m)).masked =
      (SrcCall.addImmediate d r i).masked ∧
    (SrcCall.storeWord (r + 32 * k) (b + 32 * l) (i + 4096 * m)).masked =
      (SrcCall.storeWord r b i).masked) ∧
  (∀ c : SrcCall, c.wf = true ↔ SrcCall.ofInstr c.masked = c) ∧
  (∀ (n : Int) (addr : Word), (addr.toNat : Int) = n % 2 ^ 32 → splitValue n = split addr) ∧
  (∀ (n k l : Int) (addr : Word) (a b : RegId), (addr.toNat : Int) = n % 2 ^ 32 →
    (a.toNat : Int) = k % 32 → (b.toNat : Int) = l % 32 → stubValue n k l = stub addr a b) ∧
  (∀ x : BlockArgs, blockValue x = block (portsOfArgs x) ∧
    ((portsOfArgs x).spAddr.toNat : Int) = x.spAddr % 2 ^ 32 ∧
    ((portsOfArgs x).uRd.toNat : Int) = x.uRd % 32 ∧
    ((portsOfArgs x).uImm20.toNat : Int) = x.uImm20 % 2 ^ 20 ∧
    ((portsOfArgs x).iRd.toNat : Int) = x.iRd % 32 ∧
    ((portsOfArgs x).iRs1.toNat : Int) = x.iRs1 % 32 ∧
    ((portsOfArgs x).iImm12.toNat : Int) = x.iImm12 % 4096 ∧
    ((portsOfArgs x).sRs2.toNat : Int) = x.sRs2 % 32 ∧
    ((portsOfArgs x).sRs1.toNat : Int) = x.sRs1 % 32 ∧
    ((portsOfArgs x).sImm12.toNat : Int) = x.sImm12 % 4096 ∧
    ((portsOfArgs x).stAddr.toNat : Int) = x.stAddr % 2 ^ 32 ∧
    ((portsOfArgs x).stScratchA.toNat : Int) = x.stScratchA % 32 ∧
    ((portsOfArgs x).stScratchB.toNat : Int) = x.stScratchB % 32)

/-- Decode and encode agree (a): an instruction is read back from its word, and from its four bytes at the
front of any byte list, with every operand at every value. (Every `Instr` is well formed by its type.) -/
def Obligations.DecodeOfEncodeIsTheInstruction : Prop :=
  ∀ i : Instr,
    decodeWord (encode i) = some i ∧
    ∀ rest : List Byte, decode (encodeBytes i ++ rest) = .ok (i, rest)

/-- The other direction: a word that decodes is the encoding of what it decodes to, and the decoder refuses
exactly the words of class `NotProduced` (R63, R66). A byte list is refused as truncated exactly when it is
shorter than one word (every instruction is one 32-bit word: R51, R69), and as `notProduced w` exactly when
its first four bytes are the image of `w` and `w` is of that class. -/
def Obligations.DecodedWordsAreEncodings : Prop :=
  (∀ (w : Word) (i : Instr), decodeWord w = some i → encode i = w) ∧
  (∀ w : Word, decodeWord w = none ↔ classify w = .notProduced) ∧
  (∀ (bs rest : List Byte) (i : Instr), decode bs = .ok (i, rest) → bs = encodeBytes i ++ rest) ∧
  (∀ bs : List Byte, decode bs = .error .truncated ↔ bs.length < 4) ∧
  (∀ (bs : List Byte) (w : Word), decode bs = .error (.notProduced w) ↔
    classify w = .notProduced ∧ ∃ rest, bs = bytesLE 4 w ++ rest)

/-- R68 with the source's negative test (95_test_vectors.md V-L1-4): a store word whose function code is
changed to anything but `0b010` is decoded as no instruction. -/
def Obligations.OtherStoreFunctionCodesAreRefused : Prop :=
  ∀ (rs2 rs1 : RegId) (imm12 : Imm12) (f : BitVec 3), f ≠ 0b010 →
    decodeWord (slice imm12 5 7 ++ rs2 ++ rs1 ++ f ++ slice imm12 0 5 ++ opcStore) = none

/-- Words written out from the encodings of 30_encoding.md (and V-L1-2, V-CL-4, V-CL-7) decode to what they
stand for. -/
def Obligations.WrittenWordsDecode : Prop :=
  decodeWord 0b10000000000000000001001010110111 = some (.lui 5 0x80001) ∧
  decodeWord 0b10000000000000101000001010010011 = some (.addi 5 5 (-2048)) ∧
  decodeWord 0b11111110011000101010111000100011 = some (.sw 6 5 (-4)) ∧
  decodeWord 0b00000000000100000000000001110011 = some .ebreak ∧
  decodeWord 0x00001013 = none ∧ decodeWord 0x00000073 = none

/-! ### Byte order (20_memory.md) -/

/-- R36: byte `j` of the image of a word is `w[8j+7:8j]`, in increasing address order; the value is rebuilt
from the image; and the example of R36. (The formula is the spec's general knowledge.) -/
def Obligations.WordImageIsLittleEndian : Prop :=
  (∀ w : Word, bytesLE 4 w = [w.extractLsb' 0 8, w.extractLsb' 8 8, w.extractLsb' 16 8, w.extractLsb' 24 8] ∧
    ofBytesLE 32 (bytesLE 4 w) = w) ∧
  bytesLE 4 (0x800012B7#32) = [0xB7, 0x12, 0x00, 0x80]

/-- R41: `MemWrite(addr, n, v)` writes `v[8j+7:8j]` to byte address `addr + j` modulo 2^32, leaves every
other byte alone, and `MemRead` is its inverse, for every access of at most 2^32 bytes. (That data is
little-endian is the spec's decision D10.) -/
def Obligations.MemoryWriteThenRead : Prop :=
  ∀ (m : Memory) (addr : Word) (n : Nat) (v : BitVec (8 * n)), m.wf = true → n ≤ 2 ^ 32 →
    memRead (memWrite m addr n v) addr n = v ∧
    (∀ j, j < n → (memWrite m addr n v).readByte ((addr.toNat + j) % 2 ^ 32) = v.extractLsb' (8 * j) 8) ∧
    (∀ a, (∀ j, j < n → a ≠ (addr.toNat + j) % 2 ^ 32) →
      (memWrite m addr n v).readByte a = m.readByte a)

/-- The canonical form of memory: two canonical memories that read alike at every address are equal. -/
def Obligations.CanonicalMemoriesAreEqual : Prop :=
  ∀ m m' : Memory, m.wf = true → m'.wf = true → (∀ a, m.readByte a = m'.readByte a) → m = m'

/-! ### The stub builder and the block (42_stub_builder.md, 10_state.md) -/

/-- R86 and the source's vector (V-L1-2): the five words decode, in order, to the instructions of the
algorithm with SPLIT's two immediates, and the worked example of R86. -/
def Obligations.StubWordsFollowTheAlgorithm : Prop :=
  (∀ (addr : Word) (a b : RegId),
    stubWordList addr a b = [(stub addr a b).word0, (stub addr a b).word1, (stub addr a b).word2,
      (stub addr a b).word3, (stub addr a b).word4] ∧
    decodeWord (stub addr a b).word0 = some (.lui a (split addr).hi20) ∧
    decodeWord (stub addr a b).word1 = some (.addi a a (split addr).lo12) ∧
    decodeWord (stub addr a b).word2 = some (.addi b 0 0x001) ∧
    decodeWord (stub addr a b).word3 = some (.sw b a 0x000) ∧
    decodeWord (stub addr a b).word4 = some .ebreak) ∧
  stubDefault 0x80001000 = stub 0x80001000 5 6 ∧
  stubWordList 0x80001000 5 6 = [0x800012B7, 0x00028293, 0x00100313, 0x0062A023, 0x00100073]

/-- R87 (the spec's inference): the closed form of the last three words. -/
def Obligations.StubClosedForm : Prop :=
  ∀ (addr : Word) (a b : RegId),
    (stub addr a b).word2 = 0x00100013 ||| (b.setWidth 32 <<< 7) ∧
    (stub addr a b).word3 = 0x00002023 ||| (b.setWidth 32 <<< 20) ||| (a.setWidth 32 <<< 15) ∧
    (stub addr a b).word4 = 0x00100073

/-- R37 and R88: byte `4i + j` of the image is `st_word<i>[8j+7:8j]`, image byte `k` stands at
`st_bytes[8k+7:8k]`, and the image is 20 bytes. (The output port is the spec's decision D6.) -/
def Obligations.StubImageBytes : Prop :=
  ∀ (addr : Word) (a b : RegId) (i j : Nat), i < 5 → j < 4 →
    (stubImage addr a b).length = 20 ∧
    stubByte (stub addr a b) (4 * i + j) =
      ([(stub addr a b).word0, (stub addr a b).word1, (stub addr a b).word2, (stub addr a b).word3,
        (stub addr a b).word4].getD i 0).extractLsb' (8 * j) 8 ∧
    (stubImage addr a b).getD (4 * i + j) 0 = stubByte (stub addr a b) (4 * i + j)

/-- R89 (the spec's inference): which inputs each word depends on, both ways: words 0 and 1 not on
`scratch_b`, word 2 on `scratch_b` alone, word 3 on both registers alone, word 4 on nothing; and two inputs
with the same words 0, 1 and 2 are the same inputs. -/
def Obligations.StubWordDependences : Prop :=
  (∀ (addr addr' : Word) (a a' b b' : RegId),
    (stub addr a b).word0 = (stub addr a b').word0 ∧
    (stub addr a b).word1 = (stub addr a b').word1 ∧
    (stub addr a b).word2 = (stub addr' a' b).word2 ∧
    (stub addr a b).word3 = (stub addr' a b).word3 ∧
    (stub addr a b).word4 = (stub addr' a' b').word4) ∧
  (∀ (addr addr' : Word) (a a' b b' : RegId),
    (stub addr a b).word0 = (stub addr' a' b').word0 → (stub addr a b).word1 = (stub addr' a' b').word1 →
    (stub addr a b).word2 = (stub addr' a' b').word2 → addr = addr' ∧ a = a' ∧ b = b')

/-- R18, R84 and R85 (R84 is the spec's inference, R85 its decision D3): every output port of the block is
the function of its own unit; each of the six units depends on its own input ports alone; and STUB's five
words are those the stand-alone units give for the same arguments (the I unit gives word 1 and, with other
inputs, word 2), and byte `4i + j` of its image port is byte `j` of word `i` (R88). -/
def Obligations.BlockUnitsAreIndependent : Prop :=
  (∀ x : BlockIn,
    (block x).spHi20 = (split x.spAddr).hi20 ∧ (block x).spLo12 = (split x.spAddr).lo12 ∧
    (block x).uWord = encU x.uRd x.uImm20 ∧ (block x).iWord = encI x.iRd x.iRs1 x.iImm12 ∧
    (block x).sWord = encS x.sRs2 x.sRs1 x.sImm12 ∧ (block x).sysWord = encSys ∧
    (block x).stWord0 = (stub x.stAddr x.stScratchA x.stScratchB).word0 ∧
    (block x).stWord1 = (stub x.stAddr x.stScratchA x.stScratchB).word1 ∧
    (block x).stWord2 = (stub x.stAddr x.stScratchA x.stScratchB).word2 ∧
    (block x).stWord3 = (stub x.stAddr x.stScratchA x.stScratchB).word3 ∧
    (block x).stWord4 = (stub x.stAddr x.stScratchA x.stScratchB).word4 ∧
    (block x).stBytes = (stub x.stAddr x.stScratchA x.stScratchB).bytes) ∧
  (∀ x y : BlockIn,
    (x.spAddr = y.spAddr → (block x).spHi20 = (block y).spHi20 ∧ (block x).spLo12 = (block y).spLo12) ∧
    (x.uRd = y.uRd → x.uImm20 = y.uImm20 → (block x).uWord = (block y).uWord) ∧
    (x.iRd = y.iRd → x.iRs1 = y.iRs1 → x.iImm12 = y.iImm12 → (block x).iWord = (block y).iWord) ∧
    (x.sRs2 = y.sRs2 → x.sRs1 = y.sRs1 → x.sImm12 = y.sImm12 → (block x).sWord = (block y).sWord) ∧
    (block x).sysWord = (block y).sysWord ∧
    (x.stAddr = y.stAddr → x.stScratchA = y.stScratchA → x.stScratchB = y.stScratchB →
      (block x).stWord0 = (block y).stWord0 ∧ (block x).stWord1 = (block y).stWord1 ∧
      (block x).stWord2 = (block y).stWord2 ∧ (block x).stWord3 = (block y).stWord3 ∧
      (block x).stWord4 = (block y).stWord4 ∧ (block x).stBytes = (block y).stBytes)) ∧
  (∀ x : BlockIn, x.spAddr = x.stAddr → x.uRd = x.stScratchA → x.uImm20 = (block x).spHi20 →
    x.iRd = x.stScratchA → x.iRs1 = x.stScratchA → x.iImm12 = (block x).spLo12 →
    x.sRs2 = x.stScratchB → x.sRs1 = x.stScratchA → x.sImm12 = 0x000 →
    (block x).stWord0 = (block x).uWord ∧ (block x).stWord1 = (block x).iWord ∧
    (block x).stWord3 = (block x).sWord ∧ (block x).stWord4 = (block x).sysWord) ∧
  (∀ x y : BlockIn, y.iRd = x.stScratchB → y.iRs1 = 0 → y.iImm12 = 0x001 →
    (block x).stWord2 = (block y).iWord) ∧
  (∀ (x : BlockIn) (i j : Nat), i < 5 → j < 4 →
    (block x).stBytes.extractLsb' (8 * (4 * i + j)) 8 =
      ([(block x).stWord0, (block x).stWord1, (block x).stWord2, (block x).stWord3,
        (block x).stWord4].getD i 0).extractLsb' (8 * j) 8)

/-! ### The instructions (43_target_semantics.md): results and completion -/

/-- R94: LUI completes in every state, with `x[rd] = imm20 ++ 0b000000000000` (nothing written where `rd`
is `x0`), `pc + 4`, and nothing else changed; the worked example's word. -/
def Obligations.LuiLoadsUpperImmediate : Prop :=
  (∀ (s : State) (rd : RegId) (imm20 : Imm20), ∃ t,
    exec (.lui rd imm20) s = .next t ∧
    (readReg t rd).toNat = (if rd = 0#5 then 0 else imm20.toNat * 4096) ∧
    (∀ r, r ≠ rd → readReg t r = readReg s r) ∧
    t.pc = s.pc + 4 ∧ t.mem = s.mem ∧ t.status = s.status ∧ t.params = s.params) ∧
  decodeWord 0x800012B7 = some (.lui 5 0x80001)

/-- R95: ADDI completes in every state, with `x[rd] = x[rs1] + sext_32(imm)` modulo 2^32, `x[rs1]` as it
was before (nothing written where `rd` is `x0`), `pc + 4`, and nothing else changed; the words of the
worked examples. -/
def Obligations.AddiAddsSignedImmediate : Prop :=
  (∀ (s : State) (rd rs1 : RegId) (imm12 : Imm12), ∃ t,
    exec (.addi rd rs1 imm12) s = .next t ∧
    readReg t rd = (if rd = 0#5 then 0 else BitVec.ofInt 32 ((readReg s rs1).toNat + imm12.toInt)) ∧
    (∀ r, r ≠ rd → readReg t r = readReg s r) ∧
    t.pc = s.pc + 4 ∧ t.mem = s.mem ∧ t.status = s.status ∧ t.params = s.params) ∧
  decodeWord 0x00028293 = some (.addi 5 5 0) ∧ decodeWord 0x00100313 = some (.addi 6 0 1)

/-- R96, where SW completes: with `ea = x[rs1] + sext_32(immS)` modulo 2^32, a multiple of 4 or
`MISALIGNED_STORE = perform`, and admitted by the platform, the four bytes of `x[rs2]` stand at `ea` in
little-endian order, every other byte, register and parameter is as before, and the pc is advanced.
(`STORE_ADMITTED` and `MISALIGNED_STORE` are the spec's decision D11.) -/
def Obligations.SwStoresTheWord : Prop :=
  ∀ (s : State) (rs2 rs1 : RegId) (imm12 : Imm12) (ea : Word), s.mem.wf = true →
    ea = BitVec.ofInt 32 ((readReg s rs1).toNat + imm12.toInt) →
    (ea.toNat % 4 = 0 ∨ s.params.misalignedStore = .perform) → storeAdmitted s.params ea = true →
    ∃ t, exec (.sw rs2 rs1 imm12) s = .next t ∧
      (∀ j, j < 4 →
        t.mem.readByte ((ea.toNat + j) % 2 ^ 32) = (readReg s rs2).extractLsb' (8 * j) 8) ∧
      (∀ a, (∀ j, j < 4 → a ≠ (ea.toNat + j) % 2 ^ 32) → t.mem.readByte a = s.mem.readByte a) ∧
      memRead t.mem ea 4 = readReg s rs2 ∧
      (∀ r, readReg t r = readReg s r) ∧
      t.pc = s.pc + 4 ∧ t.status = s.status ∧ t.params = s.params

/-- R96 and R43, the first check: under `MISALIGNED_STORE = fault` an SW whose effective address is not a
multiple of 4 ends the run `Faulted(MisalignedStore(ea))` and changes nothing else, whether or not the
platform admits the address (R108: alignment is checked first). (The order is the spec's decision D11.) -/
def Obligations.SwMisalignedEndsTheRun : Prop :=
  ∀ (s : State) (rs2 rs1 : RegId) (imm12 : Imm12) (ea : Word),
    ea = BitVec.ofInt 32 ((readReg s rs1).toNat + imm12.toInt) →
    ea.toNat % 4 ≠ 0 → s.params.misalignedStore = .fault →
    exec (.sw rs2 rs1 imm12) s = .next { s with status := .faulted (.misalignedStore ea) }

/-- R96 and R105, the second check: an SW that passes the first and whose address the platform does not
admit ends the run `Faulted(AccessFault(ea))` and changes nothing else. (Decision D11.) -/
def Obligations.SwUnadmittedEndsTheRun : Prop :=
  ∀ (s : State) (rs2 rs1 : RegId) (imm12 : Imm12) (ea : Word),
    ea = BitVec.ofInt 32 ((readReg s rs1).toNat + imm12.toInt) →
    (ea.toNat % 4 = 0 ∨ s.params.misalignedStore = .perform) → storeAdmitted s.params ea = false →
    exec (.sw rs2 rs1 imm12) s = .next { s with status := .faulted (.accessFault ea) }

/-- R97: EBREAK completes in every state, by the breakpoint trap that is its effect: the status becomes
`Halted(Breakpoint, pc)` and pc, general registers, memory and parameters are not changed; its word. (That
the model ends the run at the trap is the spec's decision D13.) -/
def Obligations.EbreakHaltsTheRun : Prop :=
  (∀ s : State, ∃ t, exec .ebreak s = .next t ∧ t.status = .halted .breakpoint s.pc ∧
    t.pc = s.pc ∧ (∀ r, readReg t r = readReg s r) ∧ t.mem = s.mem ∧ t.params = s.params) ∧
  decodeWord 0x00100073 = some .ebreak

/-- R104, column by column: the three exceptions with the value each records, the cause code and the model
outcome; the conditions of the two store exceptions, alignment before admission (R108); and who raises
them: EBREAK always `Breakpoint` with its pc, SW what its checks raise for its effective address, LUI and
ADDI nothing. (Cause codes: the spec's general knowledge; the two store exceptions: decision D11.) -/
def Obligations.ExceptionTable : Prop :=
  (∀ v : Word,
    recordedValue (.breakpoint v) = v ∧ causeCode (.breakpoint v) = 3 ∧
    outcomeStatus (.breakpoint v) = .halted .breakpoint v ∧
    recordedValue (.misalignedStore v) = v ∧ causeCode (.misalignedStore v) = 6 ∧
    outcomeStatus (.misalignedStore v) = .faulted (.misalignedStore v) ∧
    recordedValue (.accessFault v) = v ∧ causeCode (.accessFault v) = 7 ∧
    outcomeStatus (.accessFault v) = .faulted (.accessFault v)) ∧
  (∀ (e : Exception) (s : State), takeException e s = { s with status := outcomeStatus e }) ∧
  (∀ (p : Params) (ea : Word), storeException p ea =
    if ea.toNat % 4 ≠ 0 ∧ p.misalignedStore = .fault then some (.misalignedStore ea)
    else if storeAdmitted p ea = false then some (.accessFault ea)
    else none) ∧
  (∀ s : State, exec .ebreak s = .next (takeException (.breakpoint s.pc) s)) ∧
  (∀ (rs2 rs1 : RegId) (imm12 : Imm12) (s : State),
    (∀ e, storeException s.params (effectiveAddress (readReg s rs1) imm12) = some e →
      exec (.sw rs2 rs1 imm12) s = .next (takeException e s)) ∧
    (storeException s.params (effectiveAddress (readReg s rs1) imm12) = none →
      ∃ t, exec (.sw rs2 rs1 imm12) s = .next t ∧ t.status = s.status)) ∧
  (∀ (rd rs1 : RegId) (imm20 : Imm20) (imm12 : Imm12) (s : State),
    (∃ t, exec (.lui rd imm20) s = .next t ∧ t.status = s.status) ∧
    (∃ t, exec (.addi rd rs1 imm12) s = .next t ∧ t.status = s.status))

/-- R67: with `u_rd = 0` or `i_rd = 0` the block produces a LUI or ADDI whose destination is `x0`, without
complaint; each executes with its register write discarded, so it changes the pc alone; `ADDI x0, x0, 0` is
the word `0x00000013`. (That these are RISC-V's HINTs is the spec's general knowledge.) -/
def Obligations.HintsOnlyAdvanceThePc : Prop :=
  (∀ (i : Instr) (s : State), i.isHint = true → exec i s = .next { s with pc := s.pc + 4 }) ∧
  (∀ imm20, (Instr.lui 0 imm20).isHint = true ∧ decodeWord (encU 0 imm20) = some (.lui 0 imm20)) ∧
  (∀ rs1 imm12, (Instr.addi 0 rs1 imm12).isHint = true ∧
    decodeWord (encI 0 rs1 imm12) = some (.addi 0 rs1 imm12)) ∧
  encode (.addi 0 0 0) = 0x00000013

/-- R60 with R74: the load-address idiom `lui rd, hi20; addi rd, rd, lo12` on SPLIT's pair leaves the
address in `rd`, for every address, every destination but `x0` and every state. -/
def Obligations.IdiomLoadsAnyAddress : Prop :=
  ∀ (s : State) (rd : RegId) (addr : Word), rd ≠ 0#5 →
    ∃ t u, exec (.lui rd (split addr).hi20) s = .next t ∧
      exec (.addi rd rd (split addr).lo12) t = .next u ∧
      readReg u rd = addr ∧ (∀ r, r ≠ rd → readReg u r = readReg s r) ∧ u.pc = s.pc + 8 ∧
      u.mem = s.mem ∧ u.status = s.status

/-! ### Frames -/

/-- Frame of the instructions that store nothing, LUI, ADDI and EBREAK (R94, R95, R97): every byte of
memory and the parameters are unchanged; every register but the destination of LUI and ADDI is, and where
that is `x0` every register is; LUI and ADDI leave the status, EBREAK leaves every register and the pc. -/
def Obligations.FrameOfLuiAddiAndEbreak : Prop :=
  (∀ (i : Instr) (rd : RegId) (s t : State),
    ((∃ imm20, i = .lui rd imm20) ∨ (∃ rs1 imm12, i = .addi rd rs1 imm12)) → exec i s = .next t →
    (∀ r, r ≠ rd → readReg t r = readReg s r) ∧ (rd = 0#5 → t.regs = s.regs) ∧
    (∀ a, t.mem.readByte a = s.mem.readByte a) ∧ t.status = s.status ∧ t.params = s.params) ∧
  (∀ s t : State, exec .ebreak s = .next t →
    (∀ r, readReg t r = readReg s r) ∧ t.regs = s.regs ∧
    (∀ a, t.mem.readByte a = s.mem.readByte a) ∧ t.pc = s.pc ∧ t.params = s.params)

/-- Frame of SW: every register and the parameters are unchanged; every byte outside the four bytes at the
effective address (the meaning's own `effectiveAddress` of the base register) reads as before; where the
status changes, every byte does. -/
def Obligations.FrameOfSw : Prop :=
  ∀ (rs2 rs1 : RegId) (imm12 : Imm12) (s t : State), s.mem.wf = true →
    exec (.sw rs2 rs1 imm12) s = .next t →
    (∀ r, readReg t r = readReg s r) ∧ t.regs = s.regs ∧ t.params = s.params ∧
    (∀ ea, effectiveAddress (readReg s rs1) imm12 = ea →
      ∀ a, (∀ j, j < 4 → a ≠ (ea.toNat + j) % 2 ^ 32) → t.mem.readByte a = s.mem.readByte a) ∧
    (t.status ≠ s.status → t.pc = s.pc ∧ ∀ a, t.mem.readByte a = s.mem.readByte a)

/-! ### The step (43_target_semantics.md, 10_state.md) -/

/-- R93: from `Running`, with the pc a multiple of 4 and the four bytes there, in little-endian order,
decoding to an instruction, a step is that instruction's `exec`, with nothing added around it. -/
def Obligations.StepRunsTheDecodedInstruction : Prop :=
  ∀ (s : State) (i : Instr), s.status = .running → s.pc.toNat % 4 = 0 →
    decode (s.mem.loadBytes s.pc 4) = .ok (i, []) → step s = exec i s

/-- R93 and R99: from `Running`, a pc that is not a multiple of 4 sets status `Refused(MisalignedFetch(pc))`
and an aligned word in none of the four classes sets `Refused(NotProduced(w))`; nothing else changes. (The
two refusals are the spec's decisions D12 and D18.) -/
def Obligations.StepRefusesByName : Prop :=
  ∀ s : State, s.status = .running →
    (s.pc.toNat % 4 ≠ 0 → step s = .next { s with status := .refused (.misalignedFetch s.pc) }) ∧
    (s.pc.toNat % 4 = 0 → classify (memRead s.mem s.pc 4) = .notProduced →
      step s = .next { s with status := .refused (.notProduced (memRead s.mem s.pc 4)) })

/-- From `Running` every step answers a next state: the instructions never stop on a fault or a refusal of
the model. -/
def Obligations.RunningStateAlwaysSteps : Prop :=
  ∀ s : State, s.status = .running → ∃ t, step s = .next t

/-- R34 and R93: "Once the status leaves `Running` it never changes again." A state with a final status has
no step: the answer names that status, and no run of one or more steps from it answers a next state. (The
final statuses are the spec's decision D13; how the answer names them is log entry 1.) -/
def Obligations.FinalStatusHasNoStep : Prop :=
  ∀ s : State,
    (∀ r p, s.status = .halted r p → step s = .fault (.runHalted r p)) ∧
    (∀ r, s.status = .faulted r → step s = .fault (.runFaulted r)) ∧
    (∀ r, s.status = .refused r → step s = .refused (.runRefused r)) ∧
    (s.status ≠ .running → ∀ (k : Nat) (t : State), Host.Core.run Sys2Proof.core (k + 1) s ≠ .next t)

/-- R98: a step that leaves the status `Running` sets `pc + 4` modulo 2^32, and a step that ends the run
leaves the pc. (The advance is the spec's decision D12 and general knowledge.) -/
def Obligations.StepAdvancesOrEnds : Prop :=
  ∀ s t : State, step s = .next t →
    (t.status = .running ∧ t.pc.toNat = (s.pc.toNat + 4) % 2 ^ 32) ∨ (t.status ≠ .running ∧ t.pc = s.pc)

/-- R31 and R98, over all instructions: one step changes at most one register, or at most four bytes of
memory, never both, and never a parameter of the platform; a step that ends the run changes neither. -/
def Obligations.StepChangesOneThing : Prop :=
  ∀ s t : State, s.mem.wf = true → step s = .next t →
    t.params = s.params ∧
    ((t.mem = s.mem ∧ ∃ rd, ∀ r, r ≠ rd → readReg t r = readReg s r) ∨
      (t.regs = s.regs ∧ ∃ rs2 rs1 imm12, fetch s = .ok (.sw rs2 rs1 imm12) ∧
        ∀ a, (∀ j, j < 4 → a ≠ ((effectiveAddress (readReg s rs1) imm12).toNat + j) % 2 ^ 32) →
          t.mem.readByte a = s.mem.readByte a)) ∧
    (t.status ≠ .running → t.mem = s.mem ∧ t.regs = s.regs)

/-- R29 and R92 (the spec's inference): no instruction but EBREAK reads the pc: from another pc it does
the same to registers, memory and status, and moves the pc by the same amount. -/
def Obligations.MeaningsIgnoreThePc : Prop :=
  ∀ (i : Instr) (s t : State) (p : Word), i ≠ .ebreak → exec i s = .next t →
    exec i { s with pc := p } = .next { t with pc := p + (t.pc - s.pc) }

/-- R111 and R112: no step reads `TARGET_PRIV` or the harness's `TOHOST`: two states that differ only in
them step alike. -/
def Obligations.StepIgnoresPrivilegeAndTohost : Prop :=
  ∀ (s : State) (q : Privilege) (h : Word),
    (∀ t, step s = .next t →
      step { s with params := { s.params with targetPriv := q, tohost := h } } =
        .next { t with params := { t.params with targetPriv := q, tohost := h } }) ∧
    (∀ f, step s = .fault f →
      step { s with params := { s.params with targetPriv := q, tohost := h } } = .fault f) ∧
    (∀ f, step s = .refused f →
      step { s with params := { s.params with targetPriv := q, tohost := h } } = .refused f)

/-- R105: the parameter `STORE_ADMITTED` ranges over every predicate on addresses (so that holding it as
ranges, log entry 6, leaves none out). -/
def Obligations.EveryAdmissionPredicateIsHeld : Prop :=
  ∀ (f : Word → Bool) (p : Params), ∃ regions,
    ∀ ea, storeAdmitted { p with admitted := regions } ea = f ea

/-- The state the host starts one instruction from: the very next step runs exactly the instruction whose
word was placed. -/
def Obligations.PlacedWordRunsNext : Prop :=
  ∀ (s : State) (i : Instr), s.mem.wf = true →
    step (s.withFetchWord 32 (encode i).toNat) = exec i (s.withFetchWord 32 (encode i).toNat) ∧
    decodeTableWord 32 (encode i).toNat = some i

/-! ### Invariants and reset -/

/-- (b) Every step keeps the invariant: memory in canonical form, `x0` zero in its slot, and a final
status that tells the truth about the state it ended in (`StatusTruthful`: R97, R98, R93, R99, R106). -/
def Obligations.StepKeepsTheInvariant : Prop :=
  ∀ s t : State, Inv s → step s = .next t → Inv t

/-- The invariant holds at reset. -/
def Obligations.ResetMeetsTheInvariant : Prop := Inv State.reset

/-- An aligned pc stays aligned through every step. -/
def Obligations.StepKeepsThePcAligned : Prop :=
  ∀ s t : State, s.pc.toNat % 4 = 0 → step s = .next t → t.pc.toNat % 4 = 0

/-- R115, the values the spec gives: `x0` reads 0 and the status is `Running`; and R8: the default of
`MISALIGNED_STORE` is `fault`. (Every other value at reset is the model's, log entries 2 to 8, and no
clause names one.) -/
def Obligations.ResetValuesOfTheSpec : Prop :=
  readReg State.reset 0#5 = 0#32 ∧ State.reset.status = .running ∧
    State.reset.params.misalignedStore = .fault

/-! ### The stub on the hart (R100 to R102) -/

/-- R100, the table, from every state that meets its premises: the state after each of the five steps.
(R100 is the spec's inference from R86 and R93 to R97.) -/
def Obligations.StubFiveSteps : Prop :=
  ∀ (s : State) (p t : Word) (a b : RegId), s.mem.wf = true → StubPremises s p t a b →
    Host.Core.run Sys2Proof.core 1 s =
      .next { writeReg s a ((split t).hi20 ++ 0#12) with pc := p + 4 } ∧
    Host.Core.run Sys2Proof.core 2 s = .next { writeReg s a t with pc := p + 8 } ∧
    Host.Core.run Sys2Proof.core 3 s = .next { writeReg (writeReg s a t) b 1#32 with pc := p + 12 } ∧
    Host.Core.run Sys2Proof.core 4 s =
      .next { writeReg (writeReg s a t) b 1#32 with pc := p + 16, mem := memWrite s.mem t 4 1#32 } ∧
    Host.Core.run Sys2Proof.core 5 s =
      .next { writeReg (writeReg s a t) b 1#32 with
        pc := p + 16, mem := memWrite s.mem t 4 1#32, status := .halted .breakpoint (p + 16) }

/-- R100 and R102, the end state: the run ends `Halted(Breakpoint, P+16)` after five steps with
`MemRead(T, 4) = 1`, bytes `01 00 00 00`, `x[a] = T`, `x[b] = 1`, and every other register and byte as at
entry; where T is the harness's tohost (R90 (e)) the harness sees 1. (The spec's inference.) -/
def Obligations.StubSignalsCompletion : Prop :=
  ∀ (s : State) (p t : Word) (a b : RegId), s.mem.wf = true → StubPremises s p t a b →
    ∃ u, Host.Core.run Sys2Proof.core 5 s = .next u ∧ Signalled u p t ∧ u.pc = p + 16 ∧
      u.mem.loadBytes t 4 = [0x01, 0x00, 0x00, 0x00] ∧ readReg u a = t ∧ readReg u b = 1#32 ∧
      (∀ r, r ≠ a → r ≠ b → readReg u r = readReg s r) ∧
      (∀ x, (∀ j, j < 4 → x ≠ (t.toNat + j) % 2 ^ 32) → u.mem.readByte x = s.mem.readByte x) ∧
      (t = s.params.tohost → tohostWord u = completionValue)

/-- R101, `a = 0`, `b ≠ 0` (the spec's inference): the stub stores 1 to address 0, not to T, and halts.
(Premises R101 leaves unsaid: the platform admits address 0, and it lies outside the image.) -/
def Obligations.StubWithZeroAddressRegister : Prop :=
  ∀ (s : State) (p t : Word) (b : RegId), s.mem.wf = true → StubAtEntry s p t 0#5 b → b ≠ 0#5 →
    noOverlap 0#32 p → storeAdmitted s.params 0#32 = true →
    ∃ u, Host.Core.run Sys2Proof.core 5 s = .next u ∧ u.status = .halted .breakpoint (p + 16) ∧
      memRead u.mem 0#32 4 = 1#32 ∧ readReg u b = 1#32 ∧ (∀ r, r ≠ b → readReg u r = readReg s r) ∧
      (∀ x, 4 ≤ x → u.mem.readByte x = s.mem.readByte x)

/-- R101, `b = 0`, `a ≠ 0` (the spec's inference): the stub stores 0 to T, so the harness does not see the
completion value, and halts. -/
def Obligations.StubWithZeroValueRegister : Prop :=
  ∀ (s : State) (p t : Word) (a : RegId), s.mem.wf = true → StubAtEntry s p t a 0#5 → a ≠ 0#5 →
    t.toNat % 4 = 0 → noOverlap t p → storeAdmitted s.params t = true →
    ∃ u, Host.Core.run Sys2Proof.core 5 s = .next u ∧ u.status = .halted .breakpoint (p + 16) ∧
      memRead u.mem t 4 = 0#32 ∧ ¬ Signalled u p t ∧ readReg u a = t ∧
      (∀ r, r ≠ a → readReg u r = readReg s r)

/-- R101, `a = b ≠ 0` (the spec's inference): under `fault` the run ends
`Faulted(MisalignedStore(0x00000001))` at the SW with memory unchanged; under `perform`, where the platform
admits address 1 and it lies outside the image, 1 is stored to addresses 1 to 4 and the run halts. -/
def Obligations.StubWithEqualRegisters : Prop :=
  ∀ (s : State) (p t : Word) (a : RegId), s.mem.wf = true → StubAtEntry s p t a a → a ≠ 0#5 →
    (s.params.misalignedStore = .fault →
      ∃ u, Host.Core.run Sys2Proof.core 4 s = .next u ∧
        u.status = .faulted (.misalignedStore 0x00000001) ∧ u.pc = p + 12 ∧ u.mem = s.mem ∧
        readReg u a = 1#32) ∧
    (s.params.misalignedStore = .perform → storeAdmitted s.params 1#32 = true → noOverlap 1#32 p →
      ∃ u, Host.Core.run Sys2Proof.core 5 s = .next u ∧ u.status = .halted .breakpoint (p + 16) ∧
        u.mem.loadBytes 1#32 4 = [0x01, 0x00, 0x00, 0x00])

/-- R101, `a = b = 0` (the spec's inference; premises as for `a = 0`): the stub stores 0 to address 0 and
halts, with every register as at entry. -/
def Obligations.StubWithBothRegistersZero : Prop :=
  ∀ (s : State) (p t : Word), s.mem.wf = true → StubAtEntry s p t 0#5 0#5 →
    noOverlap 0#32 p → storeAdmitted s.params 0#32 = true →
    ∃ u, Host.Core.run Sys2Proof.core 5 s = .next u ∧ u.status = .halted .breakpoint (p + 16) ∧
      memRead u.mem 0#32 4 = 0#32 ∧ (∀ r, readReg u r = readReg s r)

/-- R101, T not a multiple of 4 (the spec's inference): under `fault` the run ends
`Faulted(MisalignedStore(T))` at the SW, memory unchanged. (Under `perform` it meets R100:
`StubFiveSteps`.) -/
def Obligations.StubWithMisalignedTarget : Prop :=
  ∀ (s : State) (p t : Word) (a b : RegId), s.mem.wf = true → StubAtEntry s p t a b →
    a ≠ 0#5 → b ≠ 0#5 → a ≠ b → t.toNat % 4 ≠ 0 → s.params.misalignedStore = .fault →
    ∃ u, Host.Core.run Sys2Proof.core 4 s = .next u ∧ u.status = .faulted (.misalignedStore t) ∧
      u.pc = p + 12 ∧ u.mem = s.mem ∧ readReg u a = t ∧ readReg u b = 1#32

/-- R116 (3) and (5), R92 (the spec's inferences): the image placed at any multiple of 4 in any state with
a canonical memory, with control at it, is a stub at its entry. -/
def Obligations.PlacedStubIsAtItsEntry : Prop :=
  ∀ (s : State) (p t : Word) (a b : RegId), s.mem.wf = true → p.toNat % 4 = 0 →
    StubAtEntry (placeStub s p t a b) p t a b ∧
    (∀ r, readReg (placeStub s p t a b) r = readReg s r) ∧
    (∀ x, (∀ k, k < 20 → x ≠ (p.toNat + k) % 2 ^ 32) →
      (placeStub s p t a b).mem.readByte x = s.mem.readByte x)

/-- R71 (the spec's general knowledge): the one-word pseudo-instruction a disassembler prints names the
word it stands for, and `la` expands to the load-address idiom. (Which one is printed where several name
one word is the model's, log entry 26; the statement holds whichever it is.) -/
def Obligations.PseudoInstructionsNameTheirWords : Prop :=
  (∀ (i : Instr) (q : Pseudo), pseudoOf i = some q → expandPseudo q = [i]) ∧
  (∀ (rd : RegId) (v : Word),
    expandPseudo (.la rd v) = [.lui rd (split v).hi20, .addi rd rd (split v).lo12])
end

