-- ==== Sys2Proof/Laws/Bits.lean ====
section
/-!
SUPPORT. The laws of bit fields and byte order: what each field of a packed word is (R51 to R56, R62), and
that a value is rebuilt from its little-endian bytes (R36).
-/

namespace Sys2Proof

open Machine

/-! ### Values of slices and concatenations (R9) -/

/-- A concatenation as a number: the left operand stands in the high bits (R9). -/
theorem toNat_append_add {m n : Nat} (a : BitVec m) (b : BitVec n) :
    (a ++ b).toNat = a.toNat * 2 ^ n + b.toNat := by
  rw [BitVec.toNat_append, ← Nat.shiftLeft_add_eq_or_of_lt b.isLt, Nat.shiftLeft_eq]

/-- A slice as a number (R9). -/
theorem toNat_slice {n : Nat} (v : BitVec n) (lo len : Nat) :
    (slice v lo len).toNat = v.toNat / 2 ^ lo % 2 ^ len := by
  simp [slice, BitVec.extractLsb'_toNat, Nat.shiftRight_eq_div_pow]

/-- The store offset of a word as a number (R59). -/
theorem toNat_immSOf (w : Word) :
    (immSOf w).toNat = w.toNat / 2 ^ 25 % 2 ^ 7 * 2 ^ 5 + w.toNat / 2 ^ 7 % 2 ^ 5 := by
  rw [← toNat_slice, ← toNat_slice]
  exact toNat_append_add (slice w 25 7) (slice w 7 5)

/-! ### Fields of the words the encoder units pack -/

theorem fields_encU (rd : RegId) (imm20 : Imm20) :
    opcodeOf (encU rd imm20) = opcLui ∧ rdOf (encU rd imm20) = rd ∧
      immUOf (encU rd imm20) = imm20 := by
  refine ⟨?_, ?_, ?_⟩ <;> ext i hi <;>
    simp [opcodeOf, rdOf, immUOf, slice, encU] <;> grind

theorem fields_encI (rd rs1 : RegId) (imm12 : Imm12) :
    opcodeOf (encI rd rs1 imm12) = opcOpImm ∧ funct3Of (encI rd rs1 imm12) = funct3Addi ∧
      rdOf (encI rd rs1 imm12) = rd ∧ rs1Of (encI rd rs1 imm12) = rs1 ∧
      immIOf (encI rd rs1 imm12) = imm12 := by
  refine ⟨?_, ?_, ?_, ?_, ?_⟩ <;> ext i hi <;>
    simp [opcodeOf, funct3Of, rdOf, rs1Of, immIOf, slice, encI] <;> grind

/-- Bit `i` of the store offset of a word (R59). -/
theorem getLsbD_immSOf (w : Word) (i : Nat) (hi : i < 12) :
    (immSOf w).getLsbD i = if i < 5 then w.getLsbD (7 + i) else w.getLsbD (20 + i) := by
  have : (immSOf w).getLsbD i = (slice w 25 7 ++ slice w 7 5).getLsbD i := rfl
  rw [this, BitVec.getLsbD_append]
  split
  · simp [slice, *]
  · simp [slice, show i - 5 < 7 by omega, show 25 + (i - 5) = 20 + i by omega]

theorem fields_encS (rs2 rs1 : RegId) (imm12 : Imm12) :
    opcodeOf (encS rs2 rs1 imm12) = opcStore ∧ funct3Of (encS rs2 rs1 imm12) = funct3Sw ∧
      rs2Of (encS rs2 rs1 imm12) = rs2 ∧ rs1Of (encS rs2 rs1 imm12) = rs1 ∧
      immSOf (encS rs2 rs1 imm12) = imm12 := by
  refine ⟨?_, ?_, ?_, ?_, ?_⟩
  case refine_5 =>
    apply BitVec.eq_of_getLsbD_eq
    intro i hi
    rw [getLsbD_immSOf _ _ hi]
    split <;> simp [encS, slice] <;> grind
  all_goals
    ext i hi
    simp [opcodeOf, funct3Of, rs2Of, rs1Of, slice, encS]
    grind

/-! ### The classifier -/

/-- What each verdict of the classifier says of the word: its tests exclude each other (R61, R63). -/
theorem classify_iff (w : Word) :
    (classify w = .lui ↔ opcodeOf w = opcLui) ∧
      (classify w = .addi ↔ opcodeOf w = opcOpImm ∧ funct3Of w = funct3Addi) ∧
      (classify w = .sw ↔ opcodeOf w = opcStore ∧ funct3Of w = funct3Sw) ∧
      (classify w = .ebreak ↔ w = wordEbreak) := by
  have h1 : opcLui ≠ opcOpImm := by decide
  have h2 : opcLui ≠ opcStore := by decide
  have h3 : opcOpImm ≠ opcStore := by decide
  have e1 : opcodeOf wordEbreak ≠ opcLui := by decide
  have e2 : opcodeOf wordEbreak ≠ opcOpImm := by decide
  have e3 : opcodeOf wordEbreak ≠ opcStore := by decide
  unfold classify
  grind

/-! ### Byte order -/

@[simp] theorem length_bytesLE {n : Nat} (count : Nat) (v : BitVec n) :
    (bytesLE count v).length = count := by simp [bytesLE]

/-- Byte `j` of a value is `v[8j+7:8j]` (R36). -/
@[simp] theorem getElem_bytesLE {n : Nat} (count : Nat) (v : BitVec n) (j : Nat)
    (h : j < (bytesLE count v).length) : (bytesLE count v)[j] = slice v (8 * j) 8 := by
  simp [bytesLE]

/-- Bit `i` of a value rebuilt from bytes is bit `i mod 8` of byte `i div 8`. -/
theorem getLsbD_ofBytesLE (n : Nat) (bs : List Byte) (i : Nat) :
    (ofBytesLE n bs).getLsbD i = (decide (i < n) && (bs.getD (i / 8) 0).getLsbD (i % 8)) := by
  induction bs generalizing i with
  | nil => simp [ofBytesLE]
  | cons b bs ih =>
    by_cases hi : i < n
    · by_cases h8 : i < 8
      · simp [ofBytesLE, hi, h8, Nat.div_eq_of_lt h8, Nat.mod_eq_of_lt h8]
      · have hd : i / 8 = (i - 8) / 8 + 1 := by omega
        have hm : i % 8 = (i - 8) % 8 := by omega
        have hb : b.getLsbD i = false := BitVec.getLsbD_of_ge b i (by omega)
        rw [ofBytesLE, BitVec.getLsbD_or, BitVec.getLsbD_setWidth, BitVec.getLsbD_shiftLeft, ih, hd, hm]
        simp [hi, h8, hb, show i - 8 < n by omega]
    · simp [hi, BitVec.getLsbD_of_ge _ i (Nat.le_of_not_lt hi)]

/-- A value is rebuilt from its bytes (R36, R41). -/
@[simp] theorem ofBytesLE_bytesLE (n : Nat) (v : BitVec (8 * n)) :
    ofBytesLE (8 * n) (bytesLE n v) = v := by
  apply BitVec.eq_of_getLsbD_eq
  intro i hi
  have hj : i / 8 < n := by omega
  rw [getLsbD_ofBytesLE, List.getD_eq_getElem _ _ (by simpa using hj), getElem_bytesLE]
  simp [slice, hi, Nat.mod_lt, Nat.div_add_mod]

end Sys2Proof
end

