-- ==== Sys2Proof/Laws/Memory.lean ====
section
/-!
SUPPORT. The laws of memory (R40, R41): a byte read after a write, the canonical form kept by every
operation, what a store of bytes leaves at each address, and a load of what was stored.
-/

namespace Sys2Proof.Machine

theorem readByte_of_all_gt (m : Memory) (k a : Nat) (hk : m.all (fun c => k < c.1) = true)
    (ha : a ≤ k) : m.readByte a = unlistedByte := by
  induction m with
  | nil => rfl
  | cons c m ih =>
    simp only [List.all_cons, Bool.and_eq_true, decide_eq_true_eq] at hk
    simp only [Memory.readByte]
    rw [if_neg (by omega), ih hk.2]

theorem wf_cons (k : Nat) (b : Byte) (m : Memory) :
    Memory.wf ((k, b) :: m) = true ↔
      k < 2 ^ 32 ∧ b ≠ unlistedByte ∧ m.all (fun c => k < c.1) = true ∧ m.wf = true := by
  simp [Memory.wf, and_assoc]

/-- A byte read after a write (R41): the byte written at its address, the old byte elsewhere. -/
theorem readByte_writeByte (m : Memory) (a a' : Nat) (v : Byte) (h : m.wf = true) :
    (m.writeByte a v).readByte a' = if a' = a then v else m.readByte a' := by
  induction m with
  | nil =>
    simp only [Memory.writeByte]
    split <;> simp_all [Memory.readByte]
  | cons c m ih =>
    obtain ⟨k, b⟩ := c
    obtain ⟨-, -, hk, hm⟩ := (wf_cons k b m).1 h
    have tail : ∀ x, x ≤ k → Memory.readByte m x = unlistedByte := fun x => readByte_of_all_gt m k x hk
    simp only [Memory.writeByte]
    split
    · have := tail a (by omega)
      split
      · grind [Memory.readByte]
      · simp only [Memory.readByte]
    · split
      · have := tail a (by omega)
        split <;> simp only [Memory.readByte] <;> split <;> simp_all
      · simp only [Memory.readByte, ih hm]
        split <;> split <;> first | omega | rfl

theorem all_gt_writeByte (m : Memory) (k a : Nat) (v : Byte)
    (hm : m.all (fun c => k < c.1) = true) (ha : k < a) :
    (m.writeByte a v).all (fun c => k < c.1) = true := by
  induction m with
  | nil => simp only [Memory.writeByte]; split <;> simp [ha]
  | cons c m ih =>
    obtain ⟨k', b⟩ := c
    rw [List.all_cons, Bool.and_eq_true, decide_eq_true_eq] at hm
    obtain ⟨hk', hm⟩ := hm
    simp only [Memory.writeByte]
    split
    · split <;> simp only [List.all_cons, hm, hk', ha, decide_true, Bool.and_self]
    · split
      · split <;> simp only [List.all_cons, hm, ha, decide_true, Bool.and_self]
      · simp only [List.all_cons, hk', ih hm, decide_true, Bool.and_self]

theorem all_gt_mono (m : Memory) (k k' : Nat) (hm : m.all (fun c => k < c.1) = true) (h : k' ≤ k) :
    m.all (fun c => k' < c.1) = true := by
  simp only [List.all_eq_true, decide_eq_true_eq] at *
  exact fun x hx => by have := hm x hx; omega

/-- A write keeps the canonical form. -/
theorem wf_writeByte (m : Memory) (a : Nat) (v : Byte) (h : m.wf = true) (ha : a < 2 ^ 32) :
    (m.writeByte a v).wf = true := by
  induction m with
  | nil =>
    simp only [Memory.writeByte]
    split
    · rfl
    · exact (wf_cons a v []).2 ⟨ha, ‹_›, rfl, rfl⟩
  | cons c m ih =>
    obtain ⟨k, b⟩ := c
    have h' := h
    obtain ⟨hk32, hb, hk, hm⟩ := (wf_cons k b m).1 h
    simp only [Memory.writeByte]
    split
    · split
      · exact h
      · refine (wf_cons ..).2 ⟨ha, ‹_›, ?_, h⟩
        simpa [‹a < k›] using all_gt_mono m k a hk (by omega)
    · split
      · split
        · exact hm
        · exact (wf_cons ..).2 ⟨ha, ‹_›, all_gt_mono m k a hk (by omega), hm⟩
      · exact (wf_cons ..).2 ⟨hk32, hb, all_gt_writeByte m k a v hk (by omega), ih hm⟩

/-- A store of bytes keeps the canonical form. -/
theorem wf_storeBytes (m : Memory) (addr : Word) (bs : List Byte) (h : m.wf = true) :
    (m.storeBytes addr bs).wf = true := by
  induction bs generalizing m addr with
  | nil => exact h
  | cons b bs ih => exact ih _ _ (wf_writeByte m addr.toNat b h addr.isLt)

theorem wf_memWrite (m : Memory) (addr : Word) (n : Nat) (v : BitVec (8 * n)) (h : m.wf = true) :
    (memWrite m addr n v).wf = true := wf_storeBytes m addr _ h

/-- An address outside the stored bytes reads as before (R41). -/
theorem readByte_storeBytes_outside (m : Memory) (addr : Word) (bs : List Byte) (a : Nat)
    (h : m.wf = true) (ha : ∀ j, j < bs.length → a ≠ (addr + BitVec.ofNat 32 j).toNat) :
    (m.storeBytes addr bs).readByte a = m.readByte a := by
  induction bs generalizing m addr with
  | nil => rfl
  | cons b bs ih =>
    have h0 : a ≠ addr.toNat := by simpa using ha 0 (by simp)
    rw [Memory.storeBytes, ih _ _ (wf_writeByte m _ b h addr.isLt), readByte_writeByte m _ _ b h,
      if_neg h0]
    intro j hj
    have := ha (j + 1) (by simpa using hj)
    rwa [show addr + 1 + BitVec.ofNat 32 j = addr + BitVec.ofNat 32 (j + 1) by
      apply BitVec.eq_of_toNat_eq; simp; omega]

/-- Byte `j` of a store of bytes stands at `addr + j` (R41); no more bytes than there are addresses. -/
theorem readByte_storeBytes_inside (m : Memory) (addr : Word) (bs : List Byte) (j : Nat)
    (h : m.wf = true) (hlen : bs.length ≤ 2 ^ 32) (hj : j < bs.length) :
    (m.storeBytes addr bs).readByte (addr + BitVec.ofNat 32 j).toNat = bs[j] := by
  induction bs generalizing m addr j with
  | nil => simp at hj
  | cons b bs ih =>
    have hwf := wf_writeByte m addr.toNat b h addr.isLt
    simp only [List.length_cons] at hlen hj
    cases j with
    | zero =>
      rw [Memory.storeBytes, readByte_storeBytes_outside _ _ _ _ hwf, readByte_writeByte m _ _ b h]
      · simp
      · intro j' hj' heq
        have : addr + BitVec.ofNat 32 0 = addr + 1 + BitVec.ofNat 32 j' := BitVec.eq_of_toNat_eq heq
        have : (addr + BitVec.ofNat 32 0).toNat = (addr + 1 + BitVec.ofNat 32 j').toNat := heq
        simp at this
        omega
    | succ j =>
      rw [Memory.storeBytes, show addr + BitVec.ofNat 32 (j + 1) = addr + 1 + BitVec.ofNat 32 j by
        apply BitVec.eq_of_toNat_eq; simp; omega]
      simpa using ih _ (addr + 1) j hwf (by omega) (by omega)

@[simp] theorem length_loadBytes (m : Memory) (addr : Word) (n : Nat) :
    (m.loadBytes addr n).length = n := by
  induction n generalizing addr with
  | zero => rfl
  | succ n ih => simp [Memory.loadBytes, ih]

/-- Byte `j` of a load stands at `addr + j` (R41). -/
theorem getElem_loadBytes (m : Memory) (addr : Word) (n j : Nat) (hj : j < n) :
    (m.loadBytes addr n)[j]'(by simpa using hj) = m.readByte (addr + BitVec.ofNat 32 j).toNat := by
  induction n generalizing addr j with
  | zero => omega
  | succ n ih =>
    cases j with
    | zero => simp [Memory.loadBytes]
    | succ j =>
      rw [show addr + BitVec.ofNat 32 (j + 1) = addr + 1 + BitVec.ofNat 32 j by
        apply BitVec.eq_of_toNat_eq; simp; omega]
      simpa [Memory.loadBytes] using ih (addr + 1) j (by omega)

/-- Two memories that agree on the bytes of a range load the same bytes. -/
theorem loadBytes_congr (m m' : Memory) (addr : Word) (n : Nat)
    (h : ∀ j, j < n → m.readByte (addr + BitVec.ofNat 32 j).toNat =
      m'.readByte (addr + BitVec.ofNat 32 j).toNat) :
    m.loadBytes addr n = m'.loadBytes addr n := by
  apply List.ext_getElem (by simp)
  intro j h1 h2
  have hj : j < n := by simpa using h1
  rw [getElem_loadBytes m addr n j hj, getElem_loadBytes m' addr n j hj, h j hj]

/-- A load of what a store of bytes stored (R41: "its inverse"). -/
theorem loadBytes_storeBytes (m : Memory) (addr : Word) (bs : List Byte) (h : m.wf = true)
    (hlen : bs.length ≤ 2 ^ 32) : (m.storeBytes addr bs).loadBytes addr bs.length = bs := by
  apply List.ext_getElem (by simp)
  intro j h1 h2
  rw [getElem_loadBytes _ addr _ j h2, readByte_storeBytes_inside m addr bs j h hlen h2]

end Sys2Proof.Machine
end

