-- ==== Sys2Proof/Laws/State.lean ====
section
/-!
SUPPORT. One lemma for each field under each update of the state, so that no later proof unfolds a record
update.
-/

namespace Sys2Proof.Machine

variable (s : State) (r : RegId) (v : Word)

@[simp] theorem writeReg_pc : (writeReg s r v).pc = s.pc := by unfold writeReg; split <;> rfl
@[simp] theorem writeReg_mem : (writeReg s r v).mem = s.mem := by unfold writeReg; split <;> rfl
@[simp] theorem writeReg_status : (writeReg s r v).status = s.status := by
  unfold writeReg; split <;> rfl
@[simp] theorem writeReg_params : (writeReg s r v).params = s.params := by
  unfold writeReg; split <;> rfl

@[simp] theorem advancePc_regs : (advancePc s).regs = s.regs := rfl
@[simp] theorem advancePc_pc : (advancePc s).pc = s.pc + 4 := rfl
@[simp] theorem advancePc_mem : (advancePc s).mem = s.mem := rfl
@[simp] theorem advancePc_status : (advancePc s).status = s.status := rfl
@[simp] theorem advancePc_params : (advancePc s).params = s.params := rfl

@[simp] theorem endRun_regs (st : Status) : (endRun st s).regs = s.regs := rfl
@[simp] theorem endRun_pc (st : Status) : (endRun st s).pc = s.pc := rfl
@[simp] theorem endRun_mem (st : Status) : (endRun st s).mem = s.mem := rfl
@[simp] theorem endRun_status (st : Status) : (endRun st s).status = st := rfl
@[simp] theorem endRun_params (st : Status) : (endRun st s).params = s.params := rfl

@[simp] theorem takeException_regs (e : Exception) : (takeException e s).regs = s.regs := rfl
@[simp] theorem takeException_pc (e : Exception) : (takeException e s).pc = s.pc := rfl
@[simp] theorem takeException_mem (e : Exception) : (takeException e s).mem = s.mem := rfl
@[simp] theorem takeException_status (e : Exception) :
    (takeException e s).status = outcomeStatus e := rfl
@[simp] theorem takeException_params (e : Exception) : (takeException e s).params = s.params := rfl

@[simp] theorem writeWord_regs (ea : Word) : (writeWord s ea v).regs = s.regs := rfl
@[simp] theorem writeWord_pc (ea : Word) : (writeWord s ea v).pc = s.pc := rfl
@[simp] theorem writeWord_mem (ea : Word) : (writeWord s ea v).mem = memWrite s.mem ea 4 v := rfl
@[simp] theorem writeWord_status (ea : Word) : (writeWord s ea v).status = s.status := rfl
@[simp] theorem writeWord_params (ea : Word) : (writeWord s ea v).params = s.params := rfl

/-- The slots of a register file after a write (R12, R27). -/
theorem writeReg_regs :
    (writeReg s r v).regs = if r = 0#5 then s.regs else s.regs.set (regIndex r) v := by
  unfold writeReg; split <;> rfl

end Sys2Proof.Machine
end

