-- ==== Sys2Proof/Laws/Ops.lean ====
section
/-!
SUPPORT. The laws of the shared operations of Machine/Ops.lean: each says once everything its operation
can do, and later proofs cite it instead of unfolding the operation.
-/

namespace Sys2Proof.Machine

/-! ### Registers (R12, R27) -/

@[simp] theorem readReg_zero (s : State) : readReg s 0#5 = 0#32 := rfl

@[simp] theorem writeReg_zero (s : State) (v : Word) : writeReg s 0#5 v = s := rfl

theorem regIndex_inj {r r' : RegId} (h : regIndex r = regIndex r') : r = r' :=
  BitVec.eq_of_toNat_eq (Fin.mk.inj h)

/-- A write to a register other than `x0`. -/
theorem writeReg_of_ne (s : State) (r : RegId) (v : Word) (h : r ≠ 0#5) :
    writeReg s r v = { s with regs := s.regs.set (regIndex r) v } := if_neg h

/-- A read of a register other than `x0`. -/
theorem readReg_of_ne (s : State) (r : RegId) (h : r ≠ 0#5) :
    readReg s r = s.regs[(regIndex r).val] := if_neg h

/-- A register after a write: the value in the destination, `x0` always 0, every other register as
before. -/
theorem readReg_writeReg (s : State) (r r' : RegId) (v : Word) :
    readReg (writeReg s r v) r' = if r' = r ∧ r ≠ 0#5 then v else readReg s r' := by
  by_cases h0 : r = 0#5
  · subst h0; simp
  by_cases h0' : r' = 0#5
  · subst h0'; simp [Ne.symm h0]
  rw [readReg_of_ne _ _ h0', readReg_of_ne _ _ h0', writeReg_of_ne _ _ _ h0]
  by_cases h : r' = r
  · subst h; simp [h0]
  · have hne : (regIndex r).val ≠ (regIndex r').val := fun e => h (regIndex_inj (Fin.ext e)).symm
    simp [h, Vector.getElem_set_ne _ _ hne]

/-- A register read looks at the register file alone. -/
theorem readReg_congr {s s' : State} (h : s'.regs = s.regs) (r : RegId) :
    readReg s' r = readReg s r := by simp [readReg, h]

@[simp] theorem readReg_advancePc (s : State) (r : RegId) :
    readReg (advancePc s) r = readReg s r := rfl
@[simp] theorem readReg_endRun (s : State) (st : Status) (r : RegId) :
    readReg (endRun st s) r = readReg s r := rfl
@[simp] theorem readReg_takeException (s : State) (e : Exception) (r : RegId) :
    readReg (takeException e s) r = readReg s r := rfl
@[simp] theorem readReg_writeWord (s : State) (ea v : Word) (r : RegId) :
    readReg (writeWord s ea v) r = readReg s r := rfl

/-- The slot of `x0` is never written. -/
theorem writeReg_slot_zero (s : State) (r : RegId) (v : Word) (h : s.regs.get 0 = 0#32) :
    (writeReg s r v).regs.get 0 = 0#32 := by
  by_cases h0 : r = 0#5
  · subst h0; exact h
  · have hne : (regIndex r).val ≠ 0 := fun e => h0 (BitVec.eq_of_toNat_eq e)
    rw [writeReg_of_ne _ _ _ h0, ← h]
    simp [Vector.get_eq_getElem, Vector.getElem_set_ne _ _ hne]

/-! ### Words in memory (R41) -/

/-- A word read where a word was written (R41). -/
theorem memRead_memWrite_same (m : Memory) (addr : Word) (v : Word) (h : m.wf = true) :
    memRead (memWrite m addr 4 v) addr 4 = v := by
  have hl : (bytesLE 4 v).length = 4 := length_bytesLE 4 v
  have := loadBytes_storeBytes m addr (bytesLE 4 v) h (by omega)
  rw [hl] at this
  unfold memRead memWrite
  rw [this]
  exact ofBytesLE_bytesLE 4 v

/-- Byte `j` of a stored word (R41). -/
theorem readByte_memWrite_inside (m : Memory) (addr v : Word) (j : Nat) (hj : j < 4)
    (h : m.wf = true) :
    (memWrite m addr 4 v).readByte (addr + BitVec.ofNat 32 j).toNat = slice v (8 * j) 8 := by
  have hl : (bytesLE 4 v).length = 4 := length_bytesLE 4 v
  have := readByte_storeBytes_inside m addr (bytesLE 4 v) j h (by omega) (by omega)
  rw [getElem_bytesLE] at this
  exact this

/-- A byte outside a stored word (R41). -/
theorem readByte_memWrite_outside (m : Memory) (addr v : Word) (a : Nat) (h : m.wf = true)
    (ha : ∀ j, j < 4 → a ≠ (addr + BitVec.ofNat 32 j).toNat) :
    (memWrite m addr 4 v).readByte a = m.readByte a := by
  have hl : (bytesLE 4 v).length = 4 := length_bytesLE 4 v
  exact readByte_storeBytes_outside m addr (bytesLE 4 v) a h (by rwa [hl])

/-! ### Stores (R43, R96, R108) -/

/-- The alignment test as a number: a multiple of 4 (R43). -/
theorem wordAligned_iff (a : Word) : wordAligned a = true ↔ a.toNat % 4 = 0 := by
  rw [wordAligned, beq_iff_eq, ← BitVec.toNat_inj, toNat_slice]
  simp

/-- The alignment test fails: not a multiple of 4 (R43). -/
theorem wordAligned_eq_false_iff (a : Word) : wordAligned a = false ↔ a.toNat % 4 ≠ 0 := by
  rw [← Bool.not_eq_true, wordAligned_iff]

/-- Everything the two checks of a store can answer, in their order (R96, R108). -/
theorem storeException_cases (p : Params) (ea : Word) :
    (wordAligned ea = false ∧ p.misalignedStore = .fault ∧
        storeException p ea = some (.misalignedStore ea)) ∨
      ((wordAligned ea = true ∨ p.misalignedStore = .perform) ∧ storeAdmitted p ea = false ∧
        storeException p ea = some (.accessFault ea)) ∨
      ((wordAligned ea = true ∨ p.misalignedStore = .perform) ∧ storeAdmitted p ea = true ∧
        storeException p ea = none) := by
  cases hw : wordAligned ea <;> cases hm : p.misalignedStore <;> cases ha : storeAdmitted p ea <;>
    simp [storeException, hw, hm, ha]

/-- Everything a store can do (R96): write the word and advance, or end the run. -/
theorem storeWord_cases (s : State) (ea v : Word) :
    (storeException s.params ea = none ∧ storeWord s ea v = advancePc (writeWord s ea v)) ∨
      (∃ e, storeException s.params ea = some e ∧ storeWord s ea v = takeException e s) := by
  unfold storeWord
  cases h : storeException s.params ea with
  | none => exact .inl ⟨rfl, rfl⟩
  | some e => exact .inr ⟨e, rfl, rfl⟩

/-! ### The canonical form of memory, kept by every operation on the state -/

theorem reset_mem_wf : State.reset.mem.wf = true := rfl

theorem writeWord_wf (s : State) (ea v : Word) (h : s.mem.wf = true) :
    (writeWord s ea v).mem.wf = true := wf_memWrite s.mem ea 4 v h

theorem storeWord_wf (s : State) (ea v : Word) (h : s.mem.wf = true) :
    (storeWord s ea v).mem.wf = true := by
  rcases storeWord_cases s ea v with ⟨-, h'⟩ | ⟨e, -, h'⟩ <;> rw [h']
  · exact writeWord_wf s ea v h
  · exact h

theorem placeFetchWord_wf (s : State) (w : Word) (h : s.mem.wf = true) :
    (placeFetchWord s w).mem.wf = true := wf_memWrite s.mem _ 4 w h

/-! ### Fetch (R50, R93) -/

/-- Everything a fetch can answer (R93). -/
theorem fetch_cases (s : State) :
    (wordAligned s.pc = false ∧ fetch s = .error (.misalignedFetch s.pc)) ∨
      (wordAligned s.pc = true ∧ decodeWord (fetchWord s) = none ∧
        fetch s = .error (.notProduced (fetchWord s))) ∨
      (∃ i, wordAligned s.pc = true ∧ decodeWord (fetchWord s) = some i ∧ fetch s = .ok i) := by
  cases hw : wordAligned s.pc with
  | false => simp [fetch, hw]
  | true =>
    cases hd : decodeWord (fetchWord s) with
    | none => simp [fetch, hw, hd]
    | some i => simp [fetch, hw, hd]

/-- A fetch looks at the pc and the memory alone. -/
theorem fetch_congr {s s' : State} (hp : s'.pc = s.pc) (hm : s'.mem = s.mem) : fetch s' = fetch s := by
  simp [fetch, fetchWord, hp, hm]

@[simp] theorem fetch_endRun (s : State) (st : Status) : fetch (endRun st s) = fetch s := rfl
@[simp] theorem fetch_takeException (s : State) (e : Exception) :
    fetch (takeException e s) = fetch s := rfl

end Sys2Proof.Machine
end

