-- ==== Sys2Proof/Laws/PerInstr.lean ====
section
/-!
SUPPORT. A statement for every instruction, one lemma for each constructor: `WordForm` says that an
instruction is one 32-bit word of four bytes whose two lowest bits are `11` (R51, R69).
-/

namespace Sys2Proof.Laws.WordForm

open Sys2Proof.Machine

/-- "every word has bits [1:0] = `0b11`" and is four bytes long (R51, R69). -/
def Statement (i : Instr) : Prop := slice (encode i) 0 2 = 0b11#2 ∧ (encodeBytes i).length = 4

/-- The two lowest bits of a word are those of its opcode field. -/
theorem low_bits_of_opcode (w : Word) : slice w 0 2 = slice (opcodeOf w) 0 2 := by
  ext i hi
  simp [opcodeOf, slice]

theorem lui (rd : RegId) (imm20 : Imm20) : Statement (.lui rd imm20) := by
  refine ⟨?_, length_bytesLE 4 _⟩
  rw [low_bits_of_opcode, encode, (fields_encU rd imm20).1]
  rfl

theorem addi (rd rs1 : RegId) (imm12 : Imm12) : Statement (.addi rd rs1 imm12) := by
  refine ⟨?_, length_bytesLE 4 _⟩
  rw [low_bits_of_opcode, encode, (fields_encI rd rs1 imm12).1]
  rfl

theorem sw (rs2 rs1 : RegId) (imm12 : Imm12) : Statement (.sw rs2 rs1 imm12) := by
  refine ⟨?_, length_bytesLE 4 _⟩
  rw [low_bits_of_opcode, encode, (fields_encS rs2 rs1 imm12).1]
  rfl

theorem ebreak : Statement .ebreak := ⟨rfl, length_bytesLE 4 _⟩

end Sys2Proof.Laws.WordForm
end

