-- ==== Sys2Proof/Laws/Step.lean ====
section
/-!
SUPPORT. What an instruction and a step can do, said once: the outcomes of `exec`, and the inversion of
`step` (R93). Later proofs cite these instead of unfolding.
-/

namespace Sys2Proof.Machine

/-- A store's checks see the address and the parameters alone, so its outcome is one of three (R96). -/
theorem execSw_cases (rs2 rs1 : RegId) (imm12 : Imm12) (s : State) :
    (storeException s.params (effectiveAddress (readReg s rs1) imm12) = none ∧
        exec (.sw rs2 rs1 imm12) s = .next (advancePc
          (writeWord s (effectiveAddress (readReg s rs1) imm12) (readReg s rs2)))) ∨
      (∃ e, storeException s.params (effectiveAddress (readReg s rs1) imm12) = some e ∧
        exec (.sw rs2 rs1 imm12) s = .next (takeException e s)) := by
  rcases storeWord_cases s (effectiveAddress (readReg s rs1) imm12) (readReg s rs2) with
    ⟨h, h'⟩ | ⟨e, h, h'⟩
  · exact .inl ⟨h, by simp [exec, execSw, h']⟩
  · exact .inr ⟨e, h, by simp [exec, execSw, h']⟩

/-- Everything an instruction can do: write a register and advance, store a word and advance, or end the
run with an exception (R94 to R97). -/
theorem exec_cases (i : Instr) (s : State) :
    (∃ rd v, exec i s = .next (advancePc (writeReg s rd v))) ∨
      (∃ ea v, exec i s = .next (advancePc (writeWord s ea v))) ∨
      (∃ e, exec i s = .next (takeException e s)) := by
  cases i with
  | lui rd imm20 => exact .inl ⟨rd, _, rfl⟩
  | addi rd rs1 imm12 => exact .inl ⟨rd, _, rfl⟩
  | sw rs2 rs1 imm12 =>
    rcases execSw_cases rs2 rs1 imm12 s with ⟨-, h⟩ | ⟨e, -, h⟩
    · exact .inr (.inl ⟨_, _, h⟩)
    · exact .inr (.inr ⟨e, h⟩)
  | ebreak => exact .inr (.inr ⟨_, rfl⟩)

/-- A step from `Running` on a fetched instruction (R93). -/
theorem step_of_fetch {s : State} {i : Instr} (hs : s.status = .running) (hf : fetch s = .ok i) :
    step s = exec i s := by simp [step, hs, hf]

/-- A step from `Running` on a refused fetch (R93, R99). -/
theorem step_of_refused {s : State} {r : RefusedReason} (hs : s.status = .running)
    (hf : fetch s = .error r) : step s = .next (endRun (.refused r) s) := by simp [step, hs, hf]

/-- Everything a step that answers a next state did (R93). -/
theorem step_cases {s t : State} (h : step s = .next t) :
    s.status = .running ∧
      ((∃ i, fetch s = .ok i ∧ exec i s = .next t) ∨
        ∃ r, fetch s = .error r ∧ t = endRun (.refused r) s) := by
  cases hs : s.status with
  | running =>
    refine ⟨rfl, ?_⟩
    cases hf : fetch s with
    | ok i => exact .inl ⟨i, rfl, by rw [← step_of_fetch hs hf, h]⟩
    | error r =>
      rw [step_of_refused hs hf] at h
      exact .inr ⟨r, rfl, (Host.Outcome.next.inj h).symm⟩
  | halted r p => simp [step, hs] at h
  | faulted r => simp [step, hs] at h
  | refused r => simp [step, hs] at h

end Sys2Proof.Machine
end

