-- ==== Sys2Proof/Laws/Stub.lean ====
section
/-! SUPPORT. The laws of the stub builder and of placing its image (R86, R88, R100, R116). -/

namespace Sys2Proof.Machine

/-- The image is the images of the five words in order (R37). -/
theorem stubImage_eq_append (addr : Word) (a b : RegId) :
    stubImage addr a b = bytesLE 4 (stub addr a b).word0 ++ (bytesLE 4 (stub addr a b).word1 ++
      (bytesLE 4 (stub addr a b).word2 ++ (bytesLE 4 (stub addr a b).word3 ++
        bytesLE 4 (stub addr a b).word4))) := by
  simp only [stubImage, stubWordList, stub, List.flatMap_cons, List.flatMap_nil, List.append_nil]

@[simp] theorem placeStub_mem (s : State) (p t : Word) (a b : RegId) :
    (placeStub s p t a b).mem = s.mem.storeBytes p (stubImage t a b) := by simp only [placeStub]
@[simp] theorem placeStub_pc (s : State) (p t : Word) (a b : RegId) :
    (placeStub s p t a b).pc = p := rfl
@[simp] theorem placeStub_regs (s : State) (p t : Word) (a b : RegId) :
    (placeStub s p t a b).regs = s.regs := rfl
@[simp] theorem placeStub_status (s : State) (p t : Word) (a b : RegId) :
    (placeStub s p t a b).status = .running := rfl
@[simp] theorem placeStub_params (s : State) (p t : Word) (a b : RegId) :
    (placeStub s p t a b).params = s.params := rfl

/-- Placing the image keeps the canonical form of memory. -/
theorem placeStub_wf (s : State) (p t : Word) (a b : RegId) (h : s.mem.wf = true) :
    (placeStub s p t a b).mem.wf = true := by
  rw [placeStub_mem]
  exact wf_storeBytes s.mem p _ h

/-- A word stored apart from the image leaves it placed (R50). -/
theorem stubPlaced_memWrite {m : Memory} {p t : Word} {a b : RegId} (q v : Word) (hwf : m.wf = true)
    (h : stubPlaced m p t a b = true) (ho : noOverlap q p) :
    stubPlaced (memWrite m q 4 v) p t a b = true := by
  simp only [stubPlaced, beq_iff_eq] at h ⊢
  rw [← h]
  apply loadBytes_congr
  intro j hj
  apply readByte_memWrite_outside _ _ _ _ hwf
  intro i hi e
  exact ho i hi j hj (BitVec.eq_of_toNat_eq e).symm

end Sys2Proof.Machine
end

