-- ==== Sys2Proof/Machine/Flags.lean ====
section
/-!
DEFINITION. Flags: there are none. "The hart has no flags or condition codes that any produced instruction
reads or writes" (R31; "Flags written: none" in R94 to R97), and the block has none (R16), so no flag is
computed and State has no field for one. This file holds no definition.
-/
end

