-- ==== Sys2Proof/Tests/Slice0.lean ====
section
/-!
SUPPORT. The model's own tests, each on one small case. Expected results are the spec's: the words and
vectors of 95_test_vectors.md and the worked examples of the rules, or words written out bit by bit from the
field layouts of 30_encoding.md. The last part holds a witness for the hypotheses of every statement that
has some.
-/

namespace Sys2Proof.Tests

open Sys2Proof.Machine

/-! ### Well-formedness: an ill-formed call for each check, refused (R13, R19, R26, R58) -/

theorem test_wf_accepts_in_range_calls :
    (SrcCall.upperImmediate 31 0xFFFFF).wf = true ∧ (SrcCall.addImmediate 0 31 (-2048)).wf = true ∧
      (SrcCall.storeWord 6 5 2047).wf = true ∧ SrcCall.breakpointTrap.wf = true := by decide
theorem test_wf_refuses_register_over : (SrcCall.upperImmediate 37 0).check = [.register 37] := by decide
theorem test_wf_refuses_register_negative : (SrcCall.storeWord 1 (-1) 0).check = [.register (-1)] := by
  decide
theorem test_wf_refuses_upper_over :
    (SrcCall.upperImmediate 5 0x180001).check = [.upperImmediate 0x180001] := by decide
theorem test_wf_refuses_upper_negative : (SrcCall.upperImmediate 5 (-1)).wf = false := by decide
theorem test_wf_refuses_lower_over : (SrcCall.addImmediate 1 2 2048).check = [.lowerImmediate 2048] := by
  decide
theorem test_wf_refuses_lower_under : (SrcCall.storeWord 1 2 (-2049)).wf = false := by decide

/-! ### Decoding: words written out field by field from R52 to R55 -/

/-- imm20 = 0x80001, rd = 5, opcode (R52). -/
theorem test_decode_lui : decodeWord 0b10000000000000000001_00101_0110111 = some (.lui 5 0x80001) := by
  decide
/-- imm = -2048, rs1 = 2, funct3, rd = 1, opcode (R53); V-I-5. -/
theorem test_decode_addi :
    decodeWord 0b100000000000_00010_000_00001_0010011 = some (.addi 1 2 (-2048)) := by decide
/-- imm[11:5], rs2 = 6, rs1 = 5, funct3, imm[4:0], opcode, offset -4 (R54); V-S-9. -/
theorem test_decode_sw :
    decodeWord 0b1111111_00110_00101_010_11100_0100011 = some (.sw 6 5 (-4)) := by decide
/-- funct12, rs1, funct3, rd, opcode (R55). -/
theorem test_decode_ebreak : decodeWord 0b000000000001_00000_000_00000_1110011 = some .ebreak := by decide
/-- V-L1-4: the other seven function codes of the store word. -/
theorem test_decode_refuses_other_funct3 :
    [0x00628023, 0x00629023, 0x0062B023, 0x0062C023, 0x0062D023, 0x0062E023, 0x0062F023].map decodeWord =
      List.replicate 7 none := by decide
/-- V-CL-1 to V-CL-10. -/
theorem test_classify_vectors :
    [0x00000037, 0xFFFFFFB7, 0x00000013, 0x00001013, 0x00002023, 0x00100073, 0x00000073, 0x00000000,
        0xFFFFFFFF, 0x00000017].map classify =
      [.lui, .lui, .addi, .notProduced, .sw, .ebreak, .notProduced, .notProduced, .notProduced,
        .notProduced] := by decide
/-- The decoder rejects by name, and leaves the rest of the bytes. -/
theorem test_decode_bytes :
    decode [0x73, 0x00, 0x10, 0x00, 0xAA] = .ok (.ebreak, [0xAA]) ∧
      decode [0x73, 0x00, 0x00, 0x00] = .error (.notProduced 0x00000073) ∧
      decode [0x73, 0x00, 0x10] = .error .truncated := ⟨rfl, rfl, rfl⟩

/-! ### Encoder, splitter and stub builder: vectors of file 95 -/

/-- V-U-3, V-U-5, V-U-8. -/
theorem test_encU_vectors :
    encU 31 0xFFFFF = 0xFFFFFFB7 ∧ encU 10 0x12345 = 0x12345537 ∧ encUValue 5 (-1) = 0xFFFFF2B7 := by
  decide
/-- V-I-3, V-I-11, V-I-12. -/
theorem test_encI_vectors :
    encI 31 31 (-1) = 0xFFFF8F93 ∧ encIValue 33 34 1 = 0x00110093 ∧ encI 10 10 1656 = 0x67850513 := by
  decide
/-- V-S-4, V-S-5, V-S-13. -/
theorem test_encS_vectors :
    encS 1 2 2047 = 0x7E112FA3 ∧ encS 1 2 (-2048) = 0x80112023 ∧ encSValue 38 37 0 = 0x0062A023 := by
  decide
/-- V-SP-3, V-SP-6, V-SP-11, V-SP-13. -/
theorem test_split_vectors :
    [0x00000800, 0x7FFFF800, 0xDEADBEEF, 0xFFFFFFFF].map split =
      [⟨0x00001, 0x800⟩, ⟨0x80000, 0x800⟩, ⟨0xDEADC, 0xEEF⟩, ⟨0x00000, 0xFFF⟩] := by decide
/-- V-ST-8 and V-ST-11. -/
theorem test_stub_vectors :
    stubWordList 0x12345678 10 11 = [0x12345537, 0x67850513, 0x00100593, 0x00B52023, 0x00100073] ∧
      stubWordList 0x80001000 0 6 = [0x80001037, 0x00000013, 0x00100313, 0x00602023, 0x00100073] := by
  decide
/-- P2's image. -/
theorem test_stub_image :
    stubImage 0x80000800 5 6 =
      [0xB7, 0x12, 0x00, 0x80, 0x93, 0x82, 0x02, 0x80, 0x13, 0x03, 0x10, 0x00, 0x23, 0xA0, 0x62, 0x00,
        0x73, 0x00, 0x10, 0x00] := by decide
/-- The same image on the port `st_bytes`, byte 0 at the low bits (R23). -/
theorem test_stub_bytes_port :
    (stub 0x80000800 5 6).bytes = 0x00100073_0062A023_00100313_80028293_800012B7 := by decide

/-! ### Assembler spelling (R70, R71) -/

theorem test_spelling :
    spelling (.lui 5 0x80001) = "lui t0, 0x80001" ∧ spelling (.addi 5 5 (-2048)) = "addi t0, t0, -2048" ∧
      spelling (.sw 6 5 0) = "sw t1, 0(t0)" ∧ spelling .ebreak = "ebreak" := by decide
/-- The disassembly R71 quotes for the source's stub. -/
theorem test_gnu_spelling :
    [Instr.lui 5 0x80001, .addi 5 5 0, .addi 6 0 1, .sw 6 5 0, .ebreak].map gnuSpelling =
      ["lui t0,0x80001", "mv t0,t0", "li t1,1", "sw t1,0(t0)", "ebreak"] := by decide

/-! ### The instructions on the hart (V-T-1 to V-T-15) -/

/-- The state after a step, if it answers one. -/
def stepped (s : State) : Option State :=
  match step s with
  | .next t => some t
  | .fault _ => none
  | .refused _ => none

/-- The machine at reset with two registers set. -/
def withX5X6 (v5 v6 : Word) : State := writeReg (writeReg State.reset 5 v5) 6 v6

/-- One step that runs the word `w`. -/
def after (s : State) (w : Nat) : Option State := stepped (s.withFetchWord 32 w)

/-- V-T-1. -/
theorem test_lui_loads :
    (after (withX5X6 7 7) 0x800012B7).map (fun t => (readReg t 5, t.pc)) =
      some (0x80001000, 0x80000004) := by decide
/-- V-T-2, V-T-15: a HINT changes no register, and the pc wraps. -/
theorem test_lui_x0_and_pc_wrap :
    (after { withX5X6 7 7 with pc := 0xFFFFFFFC } 0x00000037).map (fun t => (readReg t 0, t.regs, t.pc)) =
      some (0, (withX5X6 7 7).regs, 0x00000000) := by decide
/-- V-T-4. -/
theorem test_addi_wraps_below_zero :
    (after (withX5X6 0 0) 0x80028293).map (fun t => readReg t 5) = some 0xFFFFF800 := by decide
/-- V-T-5: signed overflow, no trap; the source is also the destination. -/
theorem test_addi_overflow :
    (after (withX5X6 0x7FFFFFFF 0) 0x00128293).map (fun t => (readReg t 5, t.status)) =
      some (0x80000000, .running) := by decide
/-- V-T-10. -/
theorem test_sw_bytes :
    (after (withX5X6 0x80001000 0xAABBCCDD) 0xFE62AE23).map (fun t =>
      [0x80000FFB, 0x80000FFC, 0x80000FFD, 0x80000FFE, 0x80000FFF, 0x80001000].map t.mem.readByte) =
      some [0, 0xDD, 0xCC, 0xBB, 0xAA, 0] := by decide
/-- V-T-11. -/
theorem test_sw_misaligned :
    (after (withX5X6 0x80001001 1) 0x0062A023).map (fun t =>
      (t.status, t.pc, t.mem.readByte 0x80001001)) =
      some (.faulted (.misalignedStore 0x80001001), 0x80000000, 0) := by decide
/-- V-T-12. -/
theorem test_ebreak_halts :
    (after { State.reset with pc := 0x80000010 } 0x00100073).map (fun t => (t.status, t.pc)) =
      some (.halted .breakpoint 0x80000010, 0x80000010) := by decide
/-- V-T-13. -/
theorem test_step_refuses_not_produced :
    (stepped State.reset).map (fun t => t.status) = some (.refused (.notProduced 0)) := by decide
/-- V-T-14. -/
theorem test_step_refuses_misaligned_fetch :
    (stepped { State.reset with pc := 0x80000002 }).map (fun t => t.status) =
      some (.refused (.misalignedFetch 0x80000002)) := by decide
/-- Zero operand bits: every row of the opcode table decodes and runs first after reset. -/
theorem test_table_rows_run :
    ([0x00000037, 0x00000013, 0x00002023, 0x00100073].map (decodeTableWord 32) =
        [some (.lui 0 0), some (.addi 0 0 0), some (.sw 0 0 0), some .ebreak]) ∧
      [0x00000037, 0x00000013, 0x00002023, 0x00100073].all (fun w => (after State.reset w).isSome) :=
  by decide

/-! ### Witnesses: the hypotheses of each statement are met together -/

theorem witness_SplitPairIsUnique :
    ((0x80001 : Imm20).setWidth 32 <<< 12) + (0x800 : Imm12).signExtend 32 = (0x80000800 : Word) := by
  decide
/-- Both sides of the boundary. -/
theorem witness_SplitExactIntegerSum :
    (0xFFFFF7FF : Word).toNat < 0xFFFFF800 ∧ ¬ (0xFFFFF800 : Word).toNat < 0xFFFFF800 := by decide
/-- The last two: a short list, and a word of class `NotProduced` (ECALL, V-CL-7) with a byte after it. -/
theorem witness_DecodedWordsAreEncodings :
    decodeWord 0x0062A023 = some (.sw 6 5 0) ∧ decode [0x23, 0xA0, 0x62, 0x00] = .ok (.sw 6 5 0, []) ∧
      decode [0x73, 0x00, 0x10] = .error .truncated ∧
      decode [0x73, 0x00, 0x00, 0x00, 0x01] = .error (.notProduced 0x00000073) :=
  ⟨by decide, rfl, rfl, rfl⟩
/-- Integers outside the ports' ranges (R79's 37 among them) that denote in-range port values. -/
theorem witness_ValueArgumentsAreMasked :
    ((0x80001000 : Word).toNat : Int) = (0x80001000 - 2 ^ 32) % 2 ^ 32 ∧
      ((5 : RegId).toNat : Int) = 37 % 32 ∧ ((31 : RegId).toNat : Int) = -1 % 32 := by decide
theorem witness_OtherStoreFunctionCodesAreRefused : (0b011 : BitVec 3) ≠ 0b010 := by decide
/-- A memory that holds something, and a word that wraps round the top of the address space. -/
theorem witness_MemoryWriteThenRead :
    Memory.wf [(0xFFFFFFFF, 1)] = true ∧ 4 ≤ 2 ^ 32 ∧
      memRead (memWrite [(0xFFFFFFFF, 1)] 0xFFFFFFFE 4 0x04030201#32) 0xFFFFFFFE 4 = 0x04030201#32 := by
  decide
theorem witness_CanonicalMemoriesAreEqual :
    Memory.wf [(5, 1)] = true ∧ ∀ a, Memory.readByte [(5, 1)] a = Memory.readByte [(5, 1)] a :=
  ⟨rfl, fun _ => rfl⟩
theorem witness_StubImageBytes : 4 < 5 ∧ 3 < 4 := by decide
theorem witness_StubWordDependences :
    (stub 0x80001000 5 6).word0 = (stub 0x80001000 5 6).word0 ∧
      (stub 0x80001000 5 6).word0 ≠ (stub 0x80001000 7 6).word0 := by decide
/-- Port values under which the stand-alone units have STUB's arguments. -/
def stubPorts : BlockIn :=
  ⟨0x80001000, 5, 0x80001, 5, 5, 0x000, 6, 5, 0x000, 0x80001000, 5, 6⟩
theorem witness_BlockUnitsAreIndependent :
    stubPorts.spAddr = stubPorts.stAddr ∧ stubPorts.uRd = stubPorts.stScratchA ∧
      stubPorts.uImm20 = (block stubPorts).spHi20 ∧ stubPorts.iRd = stubPorts.stScratchA ∧
      stubPorts.iRs1 = stubPorts.stScratchA ∧ stubPorts.iImm12 = (block stubPorts).spLo12 ∧
      stubPorts.sRs2 = stubPorts.stScratchB ∧ stubPorts.sRs1 = stubPorts.stScratchA ∧
      stubPorts.sImm12 = 0x000 := by decide
/-- The I unit's inputs for word 2, beside other stand-alone inputs and the same inputs of STUB. -/
def stubPortsWord2 : BlockIn :=
  ⟨0, 0, 0, 6, 0, 0x001, 0, 0, 0, 0x80001000, 5, 6⟩
theorem witness_BlockUnitsAreIndependent_word2 :
    stubPortsWord2.iRd = stubPorts.stScratchB ∧ stubPortsWord2.iRs1 = 0 ∧
      stubPortsWord2.iImm12 = 0x001 ∧ stubPorts.stAddr = stubPortsWord2.stAddr ∧
      stubPorts.stScratchA = stubPortsWord2.stScratchA ∧
      stubPorts.stScratchB = stubPortsWord2.stScratchB := by decide

/-- The machine with the platform's other choices: misaligned stores performed, and addresses 0 and 1
refused. -/
def otherPlatform (s : State) : State :=
  { s with params := { s.params with misalignedStore := .perform, admitted := [⟨2, 0xFFFFFFFF⟩] } }

/-- An aligned and a misaligned address that complete (`sw x6, 0(x5)`). -/
theorem witness_SwStoresTheWord :
    (withX5X6 0x80001000 1).mem.wf = true ∧
      BitVec.ofInt 32 ((readReg (withX5X6 0x80001000 1) 5).toNat + (0 : Imm12).toInt) = 0x80001000#32 ∧
      (0x80001000#32).toNat % 4 = 0 ∧ storeAdmitted (withX5X6 0x80001000 1).params 0x80001000 = true ∧
      (0x80001003#32).toNat % 4 ≠ 0 ∧
      (otherPlatform (withX5X6 0x80001003 1)).params.misalignedStore = .perform ∧
      storeAdmitted (otherPlatform (withX5X6 0x80001003 1)).params 0x80001003 = true := by decide
theorem witness_SwMisalignedEndsTheRun :
    BitVec.ofInt 32 ((readReg (withX5X6 2 1) 5).toNat + (-1 : Imm12).toInt) = 1#32 ∧
      (1#32).toNat % 4 ≠ 0 ∧ (withX5X6 2 1).params.misalignedStore = .fault := by decide
theorem witness_SwUnadmittedEndsTheRun :
    BitVec.ofInt 32 ((readReg (otherPlatform (withX5X6 0 1)) 5).toNat + (1 : Imm12).toInt) = 1#32 ∧
      (otherPlatform (withX5X6 0 1)).params.misalignedStore = .perform ∧
      storeAdmitted (otherPlatform (withX5X6 0 1)).params 1 = false ∧
      (0#32).toNat % 4 = 0 ∧ storeAdmitted (otherPlatform (withX5X6 0 1)).params 0 = false := by decide
/-- A store that raises each exception, one that is both misaligned and refused, and one that raises
none. -/
theorem witness_ExceptionTable :
    storeException State.reset.params 0x80001003 = some (.misalignedStore 0x80001003) ∧
      storeException (otherPlatform State.reset).params 1 = some (.accessFault 1) ∧
      storeException { State.reset.params with admitted := [] } 1 = some (.misalignedStore 1) ∧
      storeException State.reset.params 0x80001000 = none := by decide
theorem witness_HintsOnlyAdvanceThePc :
    (Instr.lui 0 0xFFFFF).isHint = true ∧ (Instr.addi 0 5 1).isHint = true := by decide
theorem witness_IdiomLoadsAnyAddress : (5 : RegId) ≠ 0#5 := by decide
theorem witness_FrameOfLuiAddiAndEbreak :
    (∃ imm20, Instr.lui 5 1 = .lui 5 imm20) ∧ (∃ rs1 imm12, Instr.addi 0 6 1 = .addi 0 rs1 imm12) ∧
      (∃ t, exec (.lui 5 1) State.reset = .next t) ∧ (∃ t, exec (.addi 0 6 1) State.reset = .next t) ∧
      (∃ t, exec .ebreak State.reset = .next t) :=
  ⟨⟨_, rfl⟩, ⟨_, _, rfl⟩, ⟨_, rfl⟩, ⟨_, rfl⟩, ⟨_, rfl⟩⟩
/-- A store that completes, and one whose status changes. -/
theorem witness_FrameOfSw :
    (withX5X6 0x80001001 1).mem.wf = true ∧ (∃ t, exec (.sw 6 5 0) (withX5X6 0x80001000 1) = .next t) ∧
      ∃ t, exec (.sw 6 5 0) (withX5X6 0x80001001 1) = .next t ∧ t.status ≠ .running :=
  ⟨rfl, ⟨_, rfl⟩, ⟨_, rfl, by decide⟩⟩

/-- The machine at reset with the word of `sw t1, 0(t0)` at its pc. -/
def atStore : State := (withX5X6 0x80001000 1).withFetchWord 32 0x0062A023
/-- The machine after an EBREAK. -/
def atHalt : State := { State.reset with status := .halted .breakpoint 0x80000000 }

theorem witness_StepRunsTheDecodedInstruction :
    atStore.status = .running ∧ atStore.pc.toNat % 4 = 0 ∧
      decode (atStore.mem.loadBytes atStore.pc 4) = .ok (.sw 6 5 0, []) := ⟨rfl, by decide, rfl⟩
theorem witness_StepRefusesByName :
    State.reset.status = .running ∧ (0x80000001 : Word).toNat % 4 ≠ 0 ∧
      State.reset.pc.toNat % 4 = 0 ∧ classify (memRead State.reset.mem State.reset.pc 4) = .notProduced := by
  decide
theorem witness_FinalStatusHasNoStep :
    atHalt.status = .halted .breakpoint 0x80000000 ∧ atHalt.status ≠ .running ∧
      (endRun (.faulted (.accessFault 0)) State.reset).status = .faulted (.accessFault 0) ∧
      (endRun (.refused (.notProduced 0)) State.reset).status = .refused (.notProduced 0) := by decide
/-- Steps that answer a next state, running on and ending the run (for `RunningStateAlwaysSteps`,
`StepAdvancesOrEnds`, `StepChangesOneThing`, `StepKeepsThePcAligned` and
`StepIgnoresPrivilegeAndTohost`). -/
theorem witness_step_next :
    atStore.mem.wf = true ∧ atStore.pc.toNat % 4 = 0 ∧
      (stepped atStore).map (fun t => t.status) = some .running ∧
      (stepped State.reset).map (fun t => t.status) = some (.refused (.notProduced 0)) := by decide
/-- Steps that answer a fault and a refusal (for `StepIgnoresPrivilegeAndTohost`). -/
theorem witness_step_stops :
    step atHalt = .fault (.runHalted .breakpoint 0x80000000) ∧
      step (endRun (.refused (.notProduced 0)) State.reset) = .refused (.runRefused (.notProduced 0)) :=
  ⟨rfl, rfl⟩
theorem witness_MeaningsIgnoreThePc :
    Instr.sw 6 5 0 ≠ .ebreak ∧ ∃ t, exec (.sw 6 5 0) (withX5X6 0x80001000 1) = .next t :=
  ⟨by decide, _, rfl⟩
theorem witness_PlacedWordRunsNext : (withX5X6 1 2).mem.wf = true := by decide
theorem witness_StepKeepsTheInvariant : Inv atStore ∧ ∃ t, step atStore = .next t :=
  ⟨⟨by decide, by decide, trivial⟩, _, rfl⟩

/-- The source's stub placed as program P1 places it, for two platforms. -/
def stubState (t : Word) (a b : RegId) : State := placeStub State.reset 0x80000000 t a b
def stubStateOther (t : Word) (a b : RegId) : State := placeStub (otherPlatform State.reset) 0x80000000 t a b

theorem stubState_entry (t : Word) (a b : RegId)
    (h : stubPlaced (stubState t a b).mem 0x80000000 t a b = true) :
    StubAtEntry (stubState t a b) 0x80000000 t a b := ⟨rfl, rfl, by decide, h⟩
theorem stubStateOther_entry (t : Word) (a b : RegId)
    (h : stubPlaced (stubStateOther t a b).mem 0x80000000 t a b = true) :
    StubAtEntry (stubStateOther t a b) 0x80000000 t a b := ⟨rfl, rfl, by decide, h⟩

/-- P1, aligned under `fault` (for `StubFiveSteps` and `StubSignalsCompletion`). -/
theorem witness_stub_premises_aligned :
    (stubState 0x80001000 5 6).mem.wf = true ∧
      StubPremises (stubState 0x80001000 5 6) 0x80000000 0x80001000 5 6 :=
  ⟨by decide, stubState_entry _ _ _ (by decide), by decide, by decide, by decide, .inl (by decide),
    by decide, by decide⟩
/-- P6's target, misaligned under `perform`. -/
theorem witness_stub_premises_perform :
    (stubStateOther 0x00000FFF 5 6).mem.wf = true ∧
      StubPremises (stubStateOther 0x00000FFF 5 6) 0x80000000 0x00000FFF 5 6 :=
  ⟨by decide, stubStateOther_entry _ _ _ (by decide), by decide, by decide, by decide, .inr rfl,
    by decide, by decide⟩
/-- V-ST-11. -/
theorem witness_StubWithZeroAddressRegister :
    (stubState 0x80001000 0 6).mem.wf = true ∧
      StubAtEntry (stubState 0x80001000 0 6) 0x80000000 0x80001000 0#5 6 ∧ (6 : RegId) ≠ 0#5 ∧
      noOverlap 0#32 0x80000000 ∧ storeAdmitted (stubState 0x80001000 0 6).params 0#32 = true :=
  ⟨by decide, stubState_entry _ _ _ (by decide), by decide, by decide, by decide⟩
/-- V-ST-12. -/
theorem witness_StubWithZeroValueRegister :
    (stubState 0x80001000 5 0).mem.wf = true ∧
      StubAtEntry (stubState 0x80001000 5 0) 0x80000000 0x80001000 5 0#5 ∧ (5 : RegId) ≠ 0#5 ∧
      (0x80001000 : Word).toNat % 4 = 0 ∧ noOverlap 0x80001000 0x80000000 ∧
      storeAdmitted (stubState 0x80001000 5 0).params 0x80001000 = true :=
  ⟨by decide, stubState_entry _ _ _ (by decide), by decide, by decide, by decide, by decide⟩
/-- P5 under `fault`. -/
theorem witness_StubWithEqualRegisters_fault :
    (stubState 0x80001000 5 5).mem.wf = true ∧
      StubAtEntry (stubState 0x80001000 5 5) 0x80000000 0x80001000 5 5 ∧ (5 : RegId) ≠ 0#5 ∧
      (stubState 0x80001000 5 5).params.misalignedStore = .fault :=
  ⟨by decide, stubState_entry _ _ _ (by decide), by decide, rfl⟩
/-- P5 under `perform`, with address 1 admitted. -/
theorem witness_StubWithEqualRegisters_perform :
    ∃ s : State, s.mem.wf = true ∧ StubAtEntry s 0x80000000 0x80001000 5 5 ∧
      s.params.misalignedStore = .perform ∧ storeAdmitted s.params 1#32 = true ∧
      noOverlap 1#32 0x80000000 :=
  ⟨{ stubState 0x80001000 5 5 with params := { Params.atReset with misalignedStore := .perform } },
    by decide, ⟨rfl, rfl, by decide, by decide⟩, rfl, by decide, by decide⟩
theorem witness_StubWithBothRegistersZero :
    (stubState 0x80001000 0 0).mem.wf = true ∧
      StubAtEntry (stubState 0x80001000 0 0) 0x80000000 0x80001000 0#5 0#5 ∧
      noOverlap 0#32 0x80000000 ∧ storeAdmitted (stubState 0x80001000 0 0).params 0#32 = true :=
  ⟨by decide, stubState_entry _ _ _ (by decide), by decide, by decide⟩
/-- P6. -/
theorem witness_StubWithMisalignedTarget :
    (stubState 0x00000FFF 5 6).mem.wf = true ∧
      StubAtEntry (stubState 0x00000FFF 5 6) 0x80000000 0x00000FFF 5 6 ∧ (5 : RegId) ≠ 0#5 ∧
      (6 : RegId) ≠ 0#5 ∧ (5 : RegId) ≠ 6 ∧ (0x00000FFF : Word).toNat % 4 ≠ 0 ∧
      (stubState 0x00000FFF 5 6).params.misalignedStore = .fault :=
  ⟨by decide, stubState_entry _ _ _ (by decide), by decide, by decide, by decide, by decide, rfl⟩
theorem witness_PlacedStubIsAtItsEntry :
    State.reset.mem.wf = true ∧ (0xFFFFFFFC : Word).toNat % 4 = 0 := by decide
theorem witness_PseudoInstructionsNameTheirWords :
    pseudoOf (.addi 0 0 0) = some .nop ∧ pseudoOf (.addi 6 0 1) = some (.li 6 1) ∧
      pseudoOf (.addi 5 5 0) = some (.mv 5 5) ∧ pseudoOf (.addi 5 5 1) = none := by decide

end Sys2Proof.Tests
end

/-!
The family 10_state.md: runs and final statuses (R34), what one step changes (R31), the pc in the meanings
(R29, R92), and integers given to ports (R25).
-/

namespace Sys2Proof.Machine

/-! ### Final statuses (R34, R93) -/

theorem step_of_halted {s : State} {r : HaltReason} {p : Word} (h : s.status = .halted r p) :
    step s = .fault (.runHalted r p) := by simp [step, h]

theorem step_of_faulted {s : State} {r : FaultReason} (h : s.status = .faulted r) :
    step s = .fault (.runFaulted r) := by simp [step, h]

theorem step_of_status_refused {s : State} {r : RefusedReason} (h : s.status = .refused r) :
    step s = .refused (.runRefused r) := by simp [step, h]

/-- A run of one or more steps that answers a next state begins with a step that does. -/
theorem run_succ_eq_next {M : Host.Core} {k : Nat} {s t : M.State} (h : M.run (k + 1) s = .next t) :
    ∃ u, M.step s = .next u ∧ M.run k u = .next t := by
  rw [Host.Core.run] at h
  cases hs : M.step s with
  | next u => exact ⟨u, rfl, by simpa only [hs] using h⟩
  | fault r => simp [hs] at h
  | refused r => simp [hs] at h

/-- Settles O40: each final status has its own answer, and a run that answers a next state has taken a
first step, which only a `Running` state has. -/
theorem finalStatusHasNoStep : Obligations.FinalStatusHasNoStep := by
  intro s
  refine ⟨fun _ _ => step_of_halted, fun _ => step_of_faulted, fun _ => step_of_status_refused, ?_⟩
  intro hfinal k t hrun
  obtain ⟨u, hstep, -⟩ := run_succ_eq_next hrun
  exact hfinal (step_cases hstep).1

/-! ### What one step changes (R31, R98) -/

theorem outcomeStatus_ne_running (e : Exception) : outcomeStatus e ≠ .running := by
  cases e <;> simp [outcomeStatus]

/-- Everything an instruction that answers a next state did, with the store named: `exec_cases` with the
instruction that wrote the word. -/
theorem exec_next_cases {i : Instr} {s t : State} (h : exec i s = .next t) :
    (∃ rd v, t = advancePc (writeReg s rd v)) ∨
      (∃ rs2 rs1 imm12, i = .sw rs2 rs1 imm12 ∧ t = advancePc
        (writeWord s (effectiveAddress (readReg s rs1) imm12) (readReg s rs2))) ∨
      (∃ e, t = takeException e s) := by
  cases i with
  | lui rd imm20 => exact .inl ⟨rd, _, (Host.Outcome.next.inj h).symm⟩
  | addi rd rs1 imm12 => exact .inl ⟨rd, _, (Host.Outcome.next.inj h).symm⟩
  | sw rs2 rs1 imm12 =>
    rcases execSw_cases rs2 rs1 imm12 s with ⟨-, h'⟩ | ⟨e, -, h'⟩
    · exact .inr (.inl ⟨rs2, rs1, imm12, rfl, Host.Outcome.next.inj (h.symm.trans h')⟩)
    · exact .inr (.inr ⟨e, Host.Outcome.next.inj (h.symm.trans h')⟩)
  | ebreak => exact .inr (.inr ⟨_, (Host.Outcome.next.inj h).symm⟩)

/-- The state after a step: a register written, the fetched SW's word stored, or the run ended (R93). -/
theorem step_next_cases {s t : State} (h : step s = .next t) :
    s.status = .running ∧
      ((∃ rd v, t = advancePc (writeReg s rd v)) ∨
        (∃ rs2 rs1 imm12, fetch s = .ok (.sw rs2 rs1 imm12) ∧ t = advancePc
          (writeWord s (effectiveAddress (readReg s rs1) imm12) (readReg s rs2))) ∨
        (∃ st, st ≠ .running ∧ t = endRun st s)) := by
  obtain ⟨hs, ⟨i, hf, hx⟩ | ⟨r, -, rfl⟩⟩ := step_cases h
  · refine ⟨hs, ?_⟩
    obtain hreg | ⟨rs2, rs1, imm12, rfl, ht⟩ | ⟨e, ht⟩ := exec_next_cases hx
    · exact .inl hreg
    · exact .inr (.inl ⟨rs2, rs1, imm12, hf, ht⟩)
    · exact .inr (.inr ⟨_, outcomeStatus_ne_running e, ht⟩)
  · exact ⟨hs, .inr (.inr ⟨_, by simp, rfl⟩)⟩

/-- Byte `j` of an access, as the statements write its address (R40, R41). -/
theorem toNat_add_ofNat (addr : Word) (j : Nat) :
    (addr + BitVec.ofNat 32 j).toNat = (addr.toNat + j) % 2 ^ 32 := by
  simp [BitVec.toNat_add, BitVec.toNat_ofNat]

/-- A byte outside the four that SW writes, in the statements' spelling of its addresses (R41). -/
theorem readByte_writeWord_outside (s : State) (ea v : Word) (a : Nat) (hwf : s.mem.wf = true)
    (ha : ∀ j, j < 4 → a ≠ (ea.toNat + j) % 2 ^ 32) :
    (writeWord s ea v).mem.readByte a = s.mem.readByte a := by
  refine readByte_memWrite_outside s.mem ea v a hwf fun j hj => ?_
  rw [toNat_add_ofNat]
  exact ha j hj

/-- Settles O42, by the three things a step can do. -/
theorem stepChangesOneThing : Obligations.StepChangesOneThing := by
  intro s t hwf h
  obtain ⟨hs, ⟨rd, v, rfl⟩ | ⟨rs2, rs1, imm12, hf, rfl⟩ | ⟨st, -, rfl⟩⟩ := step_next_cases h
  · have hother : ∀ r, r ≠ rd → readReg (advancePc (writeReg s rd v)) r = readReg s r := by
      intro r hr
      simp [readReg_writeReg, hr]
    exact ⟨by simp, .inl ⟨by simp, rd, hother⟩, fun hst => absurd (by simpa using hs) hst⟩
  · exact ⟨rfl, .inr ⟨rfl, rs2, rs1, imm12, hf, fun a ha => readByte_writeWord_outside s _ _ a hwf ha⟩,
      fun hst => absurd hs hst⟩
  · exact ⟨rfl, .inl ⟨rfl, 0#5, fun _ _ => rfl⟩, fun _ => ⟨rfl, rfl⟩⟩

/-! ### The same state at another pc (R29, R92) -/

/-- A register write does not see the pc. -/
theorem writeReg_at_pc (s : State) (p : Word) (rd : RegId) (v : Word) :
    writeReg { s with pc := p } rd v = { writeReg s rd v with pc := p } := by
  unfold writeReg
  split <;> rfl

/-- From another pc the advance moves it by the same amount. -/
theorem advancePc_at_pc (s : State) (p : Word) :
    advancePc { s with pc := p } = { advancePc s with pc := p + ((advancePc s).pc - s.pc) } := by
  simp [advancePc]

/-- Writing a register and advancing, from another pc. -/
theorem advancePc_writeReg_at_pc (s : State) (p : Word) (rd : RegId) (v : Word) :
    advancePc (writeReg { s with pc := p } rd v) =
      { advancePc (writeReg s rd v) with pc := p + ((advancePc (writeReg s rd v)).pc - s.pc) } := by
  rw [writeReg_at_pc, advancePc_at_pc, writeReg_pc]

/-- A store with its checks, from another pc: it moves the pc by 4 or ends the run and leaves it. -/
theorem storeWord_at_pc (s : State) (p ea v : Word) :
    storeWord { s with pc := p } ea v =
      { storeWord s ea v with pc := p + ((storeWord s ea v).pc - s.pc) } := by
  unfold storeWord
  cases storeException s.params ea with
  | none => exact advancePc_at_pc (writeWord s ea v) p
  | some e => simp [takeException, endRun]

/-- Settles O43, instruction by instruction: each meaning but EBREAK's is one of the two shared operations,
on values read from the registers. -/
theorem meaningsIgnoreThePc : Obligations.MeaningsIgnoreThePc := by
  intro i s t p hi h
  cases i with
  | lui rd imm20 =>
    cases h
    exact congrArg _ (advancePc_writeReg_at_pc s p rd _)
  | addi rd rs1 imm12 =>
    cases h
    exact congrArg _ (advancePc_writeReg_at_pc s p rd _)
  | sw rs2 rs1 imm12 =>
    cases h
    exact congrArg _ (storeWord_at_pc s p _ _)
  | ebreak => exact absurd rfl hi

end Sys2Proof.Machine

/-! ### Integers given to ports (R10, R25) -/

namespace Sys2Proof

/-- `mask_N(n)` has the unsigned value `n mod 2^N` (R10). -/
theorem toNat_mask (w : Nat) (n : Int) : ((mask w n).toNat : Int) = n % 2 ^ w := by
  have hpos : (0 : Int) < 2 ^ w := Int.pow_pos (by decide)
  rw [mask, BitVec.toNat_ofInt]
  push_cast
  exact Int.toNat_of_nonneg (Int.emod_nonneg n (Int.ne_of_gt hpos))

/-- `mask_N(n)` is the only port value whose unsigned value is `n mod 2^N` (R10). -/
theorem mask_eq_of_toNat {w : Nat} {n : Int} {v : BitVec w} (h : (v.toNat : Int) = n % 2 ^ w) :
    mask w n = v :=
  BitVec.eq_of_toNat_eq (Int.ofNat.inj ((toNat_mask w n).trans h.symm))

/-- A multiple of `2^N` added to an argument is masked away (R25). -/
theorem mask_add_mul (w : Nat) (n k : Int) : mask w (n + 2 ^ w * k) = mask w n :=
  mask_eq_of_toNat (by rw [toNat_mask, Int.add_mul_emod_self_left])

/-- An unsigned argument reads back from its port exactly when it is in the port's range. -/
theorem uint_mask_eq_iff (w : Nat) (n : Int) : (uint (mask w n) : Int) = n ↔ 0 ≤ n ∧ n < 2 ^ w := by
  have hpos : (0 : Int) < 2 ^ w := Int.pow_pos (by decide)
  rw [uint, toNat_mask]
  constructor
  · intro h
    rw [← h]
    exact ⟨Int.emod_nonneg n (Int.ne_of_gt hpos), Int.emod_lt_of_pos n hpos⟩
  · rintro ⟨h0, h1⟩
    exact Int.emod_eq_of_lt h0 h1

/-- A signed 12-bit argument reads back from its port exactly when it is in [-2048, 2047]. -/
theorem sint_mask_eq_iff (n : Int) : sint (mask 12 n) = n ↔ -2048 ≤ n ∧ n ≤ 2047 := by
  rw [sint, mask, BitVec.toInt_ofInt, Int.bmod_def]
  omega

/-! Each range check passes exactly when the argument reads back from its port (R13, R19). -/

theorem registerErrors_eq_nil_iff (n : Int) : registerErrors n = [] ↔ (uint (mask 5 n) : Int) = n := by
  rw [uint_mask_eq_iff, registerErrors]
  simp

theorem upperErrors_eq_nil_iff (n : Int) : upperErrors n = [] ↔ (uint (mask 20 n) : Int) = n := by
  rw [uint_mask_eq_iff, upperErrors]
  simp

theorem lowerErrors_eq_nil_iff (n : Int) : lowerErrors n = [] ↔ sint (mask 12 n) = n := by
  rw [sint_mask_eq_iff, lowerErrors]
  simp

/-- A call is in range exactly when its masked instruction reads back as the same call (R25, R26). -/
theorem wf_iff_ofInstr_masked (c : SrcCall) : c.wf = true ↔ SrcCall.ofInstr c.masked = c := by
  cases c <;>
    simp [SrcCall.wf, SrcCall.check, SrcCall.masked, SrcCall.ofInstr, registerErrors_eq_nil_iff,
      upperErrors_eq_nil_iff, lowerErrors_eq_nil_iff]

namespace Machine

theorem splitValue_eq {n : Int} {addr : Word} (h : (addr.toNat : Int) = n % 2 ^ 32) :
    splitValue n = split addr := by
  rw [splitValue, mask_eq_of_toNat h]

theorem stubValue_eq {n k l : Int} {addr : Word} {a b : RegId} (hn : (addr.toNat : Int) = n % 2 ^ 32)
    (ha : (a.toNat : Int) = k % 2 ^ 5) (hb : (b.toNat : Int) = l % 2 ^ 5) :
    stubValue n k l = stub addr a b := by
  rw [stubValue, mask_eq_of_toNat hn, mask_eq_of_toNat ha, mask_eq_of_toNat hb]

/-- Settles O13: each clause is one fact about `mask`. -/
theorem valueArgumentsAreMasked : Obligations.ValueArgumentsAreMasked := by
  refine ⟨?masked, wf_iff_ofInstr_masked, fun _ _ => splitValue_eq, fun _ _ _ _ _ _ => stubValue_eq, ?ports⟩
  case masked =>
    have reg : ∀ n k : Int, mask 5 (n + 32 * k) = mask 5 n := mask_add_mul 5
    have upper : ∀ n k : Int, mask 20 (n + 2 ^ 20 * k) = mask 20 n := mask_add_mul 20
    have lower : ∀ n k : Int, mask 12 (n + 4096 * k) = mask 12 n := mask_add_mul 12
    intro d i r b k l m
    simp only [SrcCall.masked, reg, upper, lower, and_self]
  case ports =>
    intro x
    exact ⟨rfl, toNat_mask 32 _, toNat_mask 5 _, toNat_mask 20 _, toNat_mask 5 _, toNat_mask 5 _,
      toNat_mask 12 _, toNat_mask 5 _, toNat_mask 5 _, toNat_mask 12 _, toNat_mask 32 _, toNat_mask 5 _,
      toNat_mask 5 _⟩

end Machine
end Sys2Proof

/-!
The family 20_memory.md: the image of a word (R36) and what decodes from it, the byte order of an access
(R41), the canonical form of memory (R40), and the image of the stub (R37, R88).
-/

namespace Sys2Proof

open Machine

/-! ### The image of a word (R36) -/

/-- The image of a word, written out (R36). -/
theorem bytesLE_four (w : Word) :
    bytesLE 4 w = [slice w 0 8, slice w 8 8, slice w 16 8, slice w 24 8] := rfl

/-- Settles O18: the image written out, and the value rebuilt from its bytes. -/
theorem wordImageIsLittleEndian : Obligations.WordImageIsLittleEndian :=
  ⟨fun w => ⟨bytesLE_four w, ofBytesLE_bytesLE 4 w⟩, by decide⟩

/-! ### Decoding what was encoded (R62, R63) -/

/-- The image of a word in front of a list decodes as the word does, and leaves the list. -/
theorem decode_bytesLE_append (w : Word) (rest : List Byte) :
    decode (bytesLE 4 w ++ rest) =
      (decodeWord w).elim (.error (.notProduced w)) fun i => .ok (i, rest) := by
  have hw : ofBytesLE 32 [slice w 0 8, slice w 8 8, slice w 16 8, slice w 24 8] = w :=
    ofBytesLE_bytesLE 4 w
  simp only [bytesLE_four, List.cons_append, List.nil_append, decode, hw]
  cases decodeWord w <;> rfl

theorem classify_encU (rd : RegId) (imm20 : Imm20) : classify (encU rd imm20) = .lui := by
  obtain ⟨hop, -, -⟩ := fields_encU rd imm20
  obtain ⟨hlui, -, -, -⟩ := classify_iff (encU rd imm20)
  exact hlui.2 hop

theorem classify_encI (rd rs1 : RegId) (imm12 : Imm12) : classify (encI rd rs1 imm12) = .addi := by
  obtain ⟨hop, hf3, -, -, -⟩ := fields_encI rd rs1 imm12
  obtain ⟨-, haddi, -, -⟩ := classify_iff (encI rd rs1 imm12)
  exact haddi.2 ⟨hop, hf3⟩

theorem classify_encS (rs2 rs1 : RegId) (imm12 : Imm12) : classify (encS rs2 rs1 imm12) = .sw := by
  obtain ⟨hop, hf3, -, -, -⟩ := fields_encS rs2 rs1 imm12
  obtain ⟨-, -, hsw, -⟩ := classify_iff (encS rs2 rs1 imm12)
  exact hsw.2 ⟨hop, hf3⟩

theorem classify_encSys : classify encSys = .ebreak := by
  obtain ⟨-, -, -, hebreak⟩ := classify_iff encSys
  exact hebreak.2 rfl

/-- An instruction is read back from its word: its unit's class selects the fields, and each field reads
back (R62, R63). -/
theorem decodeWord_encode (i : Instr) : decodeWord (encode i) = some i := by
  cases i with
  | lui rd imm20 =>
    obtain ⟨-, hrd, himm⟩ := fields_encU rd imm20
    simp only [encode, decodeWord, classify_encU, hrd, himm]
  | addi rd rs1 imm12 =>
    obtain ⟨-, -, hrd, hrs1, himm⟩ := fields_encI rd rs1 imm12
    simp only [encode, decodeWord, classify_encI, hrd, hrs1, himm]
  | sw rs2 rs1 imm12 =>
    obtain ⟨-, -, hrs2, hrs1, himm⟩ := fields_encS rs2 rs1 imm12
    simp only [encode, decodeWord, classify_encS, hrs2, hrs1, himm]
  | ebreak => simp only [encode, decodeWord, classify_encSys]

/-- Settles O14: from the word, constructor by constructor; from the bytes, since the image of a word
decodes as the word does. -/
theorem decodeOfEncodeIsTheInstruction : Obligations.DecodeOfEncodeIsTheInstruction := by
  intro i
  refine ⟨decodeWord_encode i, fun rest => ?_⟩
  rw [encodeBytes, decode_bytesLE_append, decodeWord_encode]
  rfl

/-! ### Bytes out of a value and out of a list of images (R36, R37) -/

/-- Byte `k` of a value rebuilt from bytes is byte `k` of the list, where the value has room for it. -/
theorem slice_ofBytesLE {n k : Nat} (bs : List Byte) (hk : 8 * k + 8 ≤ n) :
    slice (ofBytesLE n bs) (8 * k) 8 = bs.getD k 0 := by
  apply BitVec.eq_of_getLsbD_eq
  intro i hi
  have hlt : 8 * k + i < n := by omega
  have hdiv : (8 * k + i) / 8 = k := by omega
  have hmod : (8 * k + i) % 8 = i := by omega
  rw [slice, BitVec.getLsbD_extractLsb', getLsbD_ofBytesLE, hdiv, hmod]
  simp only [hi, hlt, decide_true, Bool.true_and]

/-- Byte `j` of a word's image is the slice of the word (R36). -/
theorem getD_bytesLE {n count j : Nat} (v : BitVec n) (hj : j < count) :
    (bytesLE count v).getD j 0 = slice v (8 * j) 8 := by
  rw [List.getD_eq_getElem _ _ (by simpa using hj), getElem_bytesLE]

/-- Byte `4i + j` of words serialized without padding is byte `j` of word `i` (R37). -/
theorem getD_flatMap_bytesLE (ws : List Word) {i j : Nat} (hi : i < ws.length) (hj : j < 4) :
    (ws.flatMap (bytesLE 4)).getD (4 * i + j) 0 = slice (ws.getD i 0) (8 * j) 8 := by
  induction ws generalizing i with
  | nil => simp at hi
  | cons w ws ih =>
    have hlen : (bytesLE 4 w).length = 4 := length_bytesLE 4 w
    rw [List.flatMap_cons]
    cases i with
    | zero =>
      rw [List.getD_append _ _ _ _ (by omega), Nat.mul_zero, Nat.zero_add, getD_bytesLE w hj]
      rfl
    | succ i =>
      have hsub : 4 * (i + 1) + j - 4 = 4 * i + j := by omega
      rw [List.getD_append_right _ _ _ _ (by omega), hlen, hsub, ih (Nat.lt_of_succ_lt_succ hi)]
      rfl

namespace Machine

/-! ### The image of the stub (R37, R88) -/

/-- The image of the stub is `STUB_BYTES` long (R8, R37). -/
@[simp] theorem length_stubImage (addr : Word) (a b : RegId) : (stubImage addr a b).length = 20 := by
  simp [stubImage_eq_append]

/-- Byte `k` of `st_bytes` is byte `k` of the image (R88). -/
theorem stubByte_stub {k : Nat} (addr : Word) (a b : RegId) (hk : k < 20) :
    stubByte (stub addr a b) k = (stubImage addr a b).getD k 0 :=
  slice_ofBytesLE (stubImage addr a b) (by omega)

/-- Settles O23: `st_bytes` holds the image, and the image is the words' images in order. -/
theorem stubImageBytes : Obligations.StubImageBytes := by
  intro addr a b i j hi hj
  have hport := stubByte_stub addr a b (k := 4 * i + j) (by omega)
  refine ⟨length_stubImage addr a b, ?_, hport.symm⟩
  rw [hport]
  exact getD_flatMap_bytesLE (stubWordList addr a b) hi hj

/-! ### An access of any length (R41)

The laws of a word's access, for an access of at most `2^32` bytes, with addresses as the statements write
them. -/

section Access

variable {m : Memory} {n : Nat}

theorem memRead_memWrite (addr : Word) (v : BitVec (8 * n)) (h : m.wf = true) (hn : n ≤ 2 ^ 32) :
    memRead (memWrite m addr n v) addr n = v := by
  have hload := loadBytes_storeBytes m addr (bytesLE n v) h (by rwa [length_bytesLE])
  rw [length_bytesLE] at hload
  rw [memRead, memWrite, hload, ofBytesLE_bytesLE]

theorem readByte_memWrite_of_lt {j : Nat} (addr : Word) (v : BitVec (8 * n)) (h : m.wf = true)
    (hn : n ≤ 2 ^ 32) (hj : j < n) :
    (memWrite m addr n v).readByte ((addr.toNat + j) % 2 ^ 32) = slice v (8 * j) 8 := by
  rw [← toNat_add_ofNat, memWrite,
    readByte_storeBytes_inside m addr _ j h (by rwa [length_bytesLE]) (by rwa [length_bytesLE]),
    getElem_bytesLE]

theorem readByte_memWrite_of_ne {a : Nat} (addr : Word) (v : BitVec (8 * n)) (h : m.wf = true)
    (ha : ∀ j, j < n → a ≠ (addr.toNat + j) % 2 ^ 32) :
    (memWrite m addr n v).readByte a = m.readByte a := by
  refine readByte_storeBytes_outside m addr _ a h fun j hj => ?_
  rw [toNat_add_ofNat]
  exact ha j (by rwa [length_bytesLE] at hj)

end Access

/-- Settles O19: the three laws of an access. -/
theorem memoryWriteThenRead : Obligations.MemoryWriteThenRead := fun _ addr _ v h hn =>
  ⟨memRead_memWrite addr v h hn, fun _ => readByte_memWrite_of_lt addr v h hn,
    fun _ => readByte_memWrite_of_ne addr v h⟩

/-! ### The canonical form (R40) -/

theorem readByte_cons_self (k : Nat) (b : Byte) (m : Memory) :
    Memory.readByte ((k, b) :: m) k = b := if_pos rfl

theorem readByte_cons_of_ne {k a : Nat} (b : Byte) (m : Memory) (h : a ≠ k) :
    Memory.readByte ((k, b) :: m) a = m.readByte a := if_neg h

/-- A canonical memory's first cell is its lowest address that does not read as unlisted: a canonical memory
that reads alike begins no higher. -/
theorem head_le_of_readByte_eq {k k' : Nat} {b b' : Byte} {m m' : Memory}
    (h : Memory.wf ((k, b) :: m) = true) (h' : Memory.wf ((k', b') :: m') = true)
    (heq : ∀ a, Memory.readByte ((k, b) :: m) a = Memory.readByte ((k', b') :: m') a) : k' ≤ k := by
  obtain ⟨-, hb, -, -⟩ := (wf_cons k b m).1 h
  obtain ⟨-, -, hgt', -⟩ := (wf_cons k' b' m').1 h'
  by_contra hlt
  have hread := heq k
  rw [readByte_cons_self, readByte_cons_of_ne b' m' (by omega),
    readByte_of_all_gt m' k' k hgt' (by omega)] at hread
  exact hb hread

/-- A canonical memory that holds a cell does not read as unlisted everywhere. -/
theorem not_readByte_cons_eq_nil {k : Nat} {b : Byte} {m : Memory} (h : Memory.wf ((k, b) :: m) = true) :
    ¬ ∀ a, Memory.readByte ((k, b) :: m) a = Memory.readByte [] a := by
  obtain ⟨-, hb, -, -⟩ := (wf_cons k b m).1 h
  intro heq
  exact hb ((readByte_cons_self k b m).symm.trans (heq k))

/-- Under a common first address, canonical memories that read alike have tails that read alike: up to that
address both tails read as unlisted. -/
theorem readByte_tail_eq {k : Nat} {b b' : Byte} {m m' : Memory}
    (h : Memory.wf ((k, b) :: m) = true) (h' : Memory.wf ((k, b') :: m') = true)
    (heq : ∀ a, Memory.readByte ((k, b) :: m) a = Memory.readByte ((k, b') :: m') a) (a : Nat) :
    m.readByte a = m'.readByte a := by
  obtain ⟨-, -, hgt, -⟩ := (wf_cons k b m).1 h
  obtain ⟨-, -, hgt', -⟩ := (wf_cons k b' m').1 h'
  rcases eq_or_ne a k with rfl | hne
  · rw [readByte_of_all_gt m a a hgt le_rfl, readByte_of_all_gt m' a a hgt' le_rfl]
  · rw [← readByte_cons_of_ne b m hne, heq, readByte_cons_of_ne b' m' hne]

/-- Settles O20, by induction on the cells: the first addresses agree, then their bytes, then the tails. -/
theorem canonicalMemoriesAreEqual : Obligations.CanonicalMemoriesAreEqual := by
  intro m
  induction m with
  | nil =>
    rintro (_ | ⟨⟨k', b'⟩, m'⟩) _ h' heq
    · rfl
    · exact absurd (fun a => (heq a).symm) (not_readByte_cons_eq_nil h')
  | cons c m ih =>
    obtain ⟨k, b⟩ := c
    rintro (_ | ⟨⟨k', b'⟩, m'⟩) h h' heq
    · exact absurd heq (not_readByte_cons_eq_nil h)
    · obtain rfl : k = k' :=
        Nat.le_antisymm (head_le_of_readByte_eq h' h fun a => (heq a).symm) (head_le_of_readByte_eq h h' heq)
      obtain rfl : b = b' := by simpa only [readByte_cons_self] using heq k
      obtain ⟨-, -, -, hm⟩ := (wf_cons k b m).1 h
      obtain ⟨-, -, -, hm'⟩ := (wf_cons k b m').1 h'
      rw [ih m' hm hm' (readByte_tail_eq h h' heq)]

end Machine
end Sys2Proof

/-!
The family 30_encoding.md: what reads back from a packed word (R65), the classes as masks and as images of
the encoder units (R61, R64), what the decoder refuses (R63, R66, R68), the load-address idiom (R60, R74),
HINTs (R67) and pseudo-instructions (R71).
-/

namespace Sys2Proof

open Machine

/-! ### Fields of a packed word (R65, R83) -/

/-- Settles O10: each unit's fields and class. -/
theorem encoderFieldsReadBack : Obligations.EncoderFieldsReadBack := by
  refine ⟨fun rd imm20 => ?_, fun rd rs1 imm12 => ?_, fun rs2 rs1 imm12 => ?_, classify_encSys⟩
  · obtain ⟨hop, hrd, himm⟩ := fields_encU rd imm20
    exact ⟨hrd, himm, hop, classify_encU rd imm20⟩
  · obtain ⟨hop, hf3, hrd, hrs1, himm⟩ := fields_encI rd rs1 imm12
    exact ⟨hrd, hrs1, himm, hf3, hop, classify_encI rd rs1 imm12⟩
  · obtain ⟨hop, hf3, hrs2, hrs1, himm⟩ := fields_encS rs2 rs1 imm12
    exact ⟨hrs2, hrs1, himm, hf3, hop, classify_encS rs2 rs1 imm12⟩

/-! ### A word of a class is packed from its own fields (R62, R64) -/

theorem classify_eq_lui_iff (w : Word) : classify w = .lui ↔ encU (rdOf w) (immUOf w) = w := by
  obtain ⟨hlui, -, -, -⟩ := classify_iff w
  refine ⟨fun h => BitVec.eq_of_toNat_eq ?_, fun h => ?_⟩
  · rw [encU, ← hlui.1 h]
    simp only [opcodeOf, rdOf, immUOf, toNat_append_add, toNat_slice]
    omega
  · rw [← h]
    exact classify_encU _ _

theorem classify_eq_addi_iff (w : Word) :
    classify w = .addi ↔ encI (rdOf w) (rs1Of w) (immIOf w) = w := by
  obtain ⟨-, haddi, -, -⟩ := classify_iff w
  refine ⟨fun h => BitVec.eq_of_toNat_eq ?_, fun h => ?_⟩
  · obtain ⟨hop, hf3⟩ := haddi.1 h
    rw [encI, ← hop, ← hf3]
    simp only [opcodeOf, funct3Of, rdOf, rs1Of, immIOf, toNat_append_add, toNat_slice]
    omega
  · rw [← h]
    exact classify_encI _ _ _

theorem classify_eq_sw_iff (w : Word) :
    classify w = .sw ↔ encS (rs2Of w) (rs1Of w) (immSOf w) = w := by
  obtain ⟨-, -, hsw, -⟩ := classify_iff w
  refine ⟨fun h => BitVec.eq_of_toNat_eq ?_, fun h => ?_⟩
  · obtain ⟨hop, hf3⟩ := hsw.1 h
    rw [encS, ← hop, ← hf3]
    simp only [opcodeOf, funct3Of, rs2Of, rs1Of, toNat_append_add, toNat_slice, toNat_immSOf]
    omega
  · rw [← h]
    exact classify_encS _ _ _

/-- Where `g` reads back what `f` packed, a value is packed in exactly one way when it is packed from what
`g` reads. -/
theorem existsUnique_iff_of_leftInverse {α β : Type} {f : α → β} {g : β → α}
    (h : Function.LeftInverse g f) (b : β) : (∃! a, f a = b) ↔ f (g b) = b := by
  constructor
  · rintro ⟨a, rfl, -⟩
    rw [h a]
  · intro hb
    refine ⟨g b, hb, ?_⟩
    rintro a rfl
    exact (h a).symm

/-- Settles O11: the fields of each unit read back, so a word is packed in exactly one way when it is packed
from its own fields, as the words of the unit's class are. -/
theorem encodersAreBijectionsOntoClasses : Obligations.EncodersAreBijectionsOntoClasses := by
  intro w
  have hU : Function.LeftInverse (fun w => (rdOf w, immUOf w)) fun p : RegId × Imm20 => encU p.1 p.2 := by
    rintro ⟨rd, imm20⟩
    obtain ⟨-, hrd, himm⟩ := fields_encU rd imm20
    simp only [hrd, himm]
  have hI : Function.LeftInverse (fun w => (rdOf w, rs1Of w, immIOf w))
      fun p : RegId × RegId × Imm12 => encI p.1 p.2.1 p.2.2 := by
    rintro ⟨rd, rs1, imm12⟩
    obtain ⟨-, -, hrd, hrs1, himm⟩ := fields_encI rd rs1 imm12
    simp only [hrd, hrs1, himm]
  have hS : Function.LeftInverse (fun w => (rs2Of w, rs1Of w, immSOf w))
      fun p : RegId × RegId × Imm12 => encS p.1 p.2.1 p.2.2 := by
    rintro ⟨rs2, rs1, imm12⟩
    obtain ⟨-, -, hrs2, hrs1, himm⟩ := fields_encS rs2 rs1 imm12
    simp only [hrs2, hrs1, himm]
  obtain ⟨-, -, -, hebreak⟩ := classify_iff w
  exact ⟨(classify_eq_lui_iff w).trans (existsUnique_iff_of_leftInverse hU w).symm,
    (classify_eq_addi_iff w).trans (existsUnique_iff_of_leftInverse hI w).symm,
    (classify_eq_sw_iff w).trans (existsUnique_iff_of_leftInverse hS w).symm, hebreak⟩

/-! ### Mask and match (R61) -/

/-- A word is its opcode, its rd, its function code and the 17 bits above them. -/
theorem eq_iff_fields (w v : Word) :
    w = v ↔ opcodeOf w = opcodeOf v ∧ rdOf w = rdOf v ∧ funct3Of w = funct3Of v ∧
      slice w 15 17 = slice v 15 17 := by
  have hw := w.isLt
  have hv := v.isLt
  simp only [opcodeOf, rdOf, funct3Of, ← BitVec.toNat_inj, toNat_slice]
  omega

theorem slice_and {n : Nat} (w m : BitVec n) (lo len : Nat) :
    slice (w &&& m) lo len = slice w lo len &&& slice m lo len := BitVec.extractLsb'_and

/-- A row whose mask keeps the opcode and no bit outside opcode and function code tests the opcode, and of the
function code what the mask keeps. -/
theorem and_mask_eq_iff {r : OpcodeRow}
    (hmask : opcodeOf r.maskBits = BitVec.allOnes 7 ∧ rdOf r.maskBits = 0#5 ∧
      slice r.maskBits 15 17 = 0#17)
    (hmatch : rdOf r.matchBits = 0#5 ∧ slice r.matchBits 15 17 = 0#17) (w : Word) :
    w &&& r.maskBits = r.matchBits ↔ opcodeOf w = opcodeOf r.matchBits ∧
      funct3Of w &&& funct3Of r.maskBits = funct3Of r.matchBits := by
  obtain ⟨hop, hrd, hhigh⟩ := hmask
  obtain ⟨hrd', hhigh'⟩ := hmatch
  rw [eq_iff_fields, hrd', hhigh']
  simp only [opcodeOf, rdOf, funct3Of, slice_and] at hop hrd ⊢
  simp only [hop, hrd, hhigh, BitVec.and_allOnes, BitVec.and_zero, true_and, and_true]

/-- A row of the table matches the words of its class (R61). -/
theorem matches_iff_classify {r : OpcodeRow} (hr : r ∈ opcodeTable) (w : Word) :
    r.matches w = true ↔ classify w = r.cls := by
  obtain ⟨hlui, haddi, hsw, hebreak⟩ := classify_iff w
  have hr : r = rowLui ∨ r = rowAddi ∨ r = rowSw ∨ r = rowEbreak := by simpa [opcodeTable] using hr
  rw [OpcodeRow.matches, beq_iff_eq]
  obtain rfl | rfl | rfl | rfl := hr
  · have hf3 : funct3Of w &&& funct3Of rowLui.maskBits = funct3Of rowLui.matchBits := BitVec.and_zero
    rw [and_mask_eq_iff (by decide) (by decide), and_iff_left hf3]
    exact hlui.symm
  · have hf3 : funct3Of w &&& funct3Of rowAddi.maskBits = funct3Of w := BitVec.and_allOnes
    rw [and_mask_eq_iff (by decide) (by decide), hf3]
    exact haddi.symm
  · have hf3 : funct3Of w &&& funct3Of rowSw.maskBits = funct3Of w := BitVec.and_allOnes
    rw [and_mask_eq_iff (by decide) (by decide), hf3]
    exact hsw.symm
  · have hall : w &&& rowEbreak.maskBits = w := BitVec.and_allOnes
    rw [hall]
    exact hebreak.symm

/-- The rows that match a word are those of its class: one, or none where it is `NotProduced`. -/
theorem length_matching_rows (w : Word) :
    (opcodeTable.filter fun r => r.matches w).length = if classify w = .notProduced then 0 else 1 := by
  have hrows : (opcodeTable.filter fun r => r.matches w) =
      opcodeTable.filter fun r => classify w = r.cls :=
    List.filter_congr fun r hr => by
      rw [Bool.eq_iff_iff, matches_iff_classify hr, decide_eq_true_iff]
  rw [hrows]
  cases classify w <;> rfl

/-- Settles O12: the rows of the table, the classifier's tests, and the count of rows that match. -/
theorem classesFollowMaskAndMatch : Obligations.ClassesFollowMaskAndMatch := by
  intro w
  obtain ⟨hlui, haddi, hsw, hebreak⟩ := classify_iff w
  have hrow : ∀ r ∈ opcodeTable, (classify w = r.cls ↔ w &&& r.maskBits = r.matchBits) := fun r hr => by
    rw [← matches_iff_classify hr, OpcodeRow.matches, beq_iff_eq]
  exact ⟨hrow rowLui (by decide), hrow rowAddi (by decide), hrow rowSw (by decide),
    hrow rowEbreak (by decide), hlui, haddi, hsw, hebreak, length_matching_rows w⟩

/-! ### What the decoder accepts and refuses (R63, R66, R69) -/

theorem encode_of_decodeWord {w : Word} {i : Instr} (h : decodeWord w = some i) : encode i = w := by
  unfold decodeWord at h
  cases hc : classify w with
  | lui =>
    obtain rfl : Instr.lui _ _ = i := by simpa [hc] using h
    exact (classify_eq_lui_iff w).1 hc
  | addi =>
    obtain rfl : Instr.addi _ _ _ = i := by simpa [hc] using h
    exact (classify_eq_addi_iff w).1 hc
  | sw =>
    obtain rfl : Instr.sw _ _ _ = i := by simpa [hc] using h
    exact (classify_eq_sw_iff w).1 hc
  | ebreak =>
    obtain rfl : Instr.ebreak = i := by simpa [hc] using h
    obtain ⟨-, -, -, hebreak⟩ := classify_iff w
    exact (hebreak.1 hc).symm
  | notProduced => simp [hc] at h

theorem decodeWord_eq_none_iff (w : Word) : decodeWord w = none ↔ classify w = .notProduced := by
  unfold decodeWord
  cases classify w <;> simp

/-- Four bytes are the image of the word rebuilt from them (R36, R41). -/
theorem bytesLE_ofBytesLE (b0 b1 b2 b3 : Byte) :
    bytesLE 4 (ofBytesLE 32 [b0, b1, b2, b3]) = [b0, b1, b2, b3] := by
  apply List.ext_getElem (length_bytesLE 4 _)
  intro j hj hj'
  rw [length_bytesLE] at hj
  rw [getElem_bytesLE, slice_ofBytesLE _ (by omega), List.getD_eq_getElem _ _ hj']

/-- A list shorter than a word is truncated; any other begins with the image of a word, and decodes as that
word does. -/
theorem decode_cases (bs : List Byte) :
    (bs.length < 4 ∧ decode bs = .error .truncated) ∨
      ∃ w rest, bs = bytesLE 4 w ++ rest ∧
        decode bs = (decodeWord w).elim (.error (.notProduced w)) fun i => .ok (i, rest) := by
  match bs with
  | [] | [_] | [_, _] | [_, _, _] => exact .inl ⟨by simp, rfl⟩
  | b0 :: b1 :: b2 :: b3 :: rest =>
    have hbs : b0 :: b1 :: b2 :: b3 :: rest = bytesLE 4 (ofBytesLE 32 [b0, b1, b2, b3]) ++ rest := by
      rw [bytesLE_ofBytesLE]
      rfl
    refine .inr ⟨_, rest, hbs, ?_⟩
    rw [hbs]
    exact decode_bytesLE_append _ rest

theorem eq_encodeBytes_of_decode {bs rest : List Byte} {i : Instr} (h : decode bs = .ok (i, rest)) :
    bs = encodeBytes i ++ rest := by
  obtain ⟨-, hd⟩ | ⟨w, rest', rfl, hd⟩ := decode_cases bs <;> rw [hd] at h
  · cases h
  · cases hw : decodeWord w with
    | none => simp [hw] at h
    | some j =>
      obtain ⟨rfl, rfl⟩ : j = i ∧ rest' = rest := by simpa [hw] using h
      rw [encodeBytes, encode_of_decodeWord hw]

theorem decode_eq_truncated_iff (bs : List Byte) : decode bs = .error .truncated ↔ bs.length < 4 := by
  obtain ⟨hlen, hd⟩ | ⟨w, rest, rfl, hd⟩ := decode_cases bs
  · exact iff_of_true hd hlen
  · rw [hd]
    refine iff_of_false ?_ (by simp)
    cases decodeWord w <;> simp

theorem decode_eq_notProduced_iff (bs : List Byte) (w : Word) :
    decode bs = .error (.notProduced w) ↔
      classify w = .notProduced ∧ ∃ rest, bs = bytesLE 4 w ++ rest := by
  rw [← decodeWord_eq_none_iff]
  constructor
  · intro h
    obtain ⟨-, hd⟩ | ⟨w', rest, rfl, hd⟩ := decode_cases bs <;> rw [hd] at h
    · cases h
    · cases hw : decodeWord w' with
      | none =>
        obtain rfl : w' = w := by simpa [hw] using h
        exact ⟨hw, rest, rfl⟩
      | some j => simp [hw] at h
  · rintro ⟨hw, rest, rfl⟩
    rw [decode_bytesLE_append, hw]
    rfl

/-- Settles O15: the two clauses about words and the three about byte lists. -/
theorem decodedWordsAreEncodings : Obligations.DecodedWordsAreEncodings :=
  ⟨fun _ _ => encode_of_decodeWord, decodeWord_eq_none_iff, fun _ _ _ => eq_encodeBytes_of_decode,
    decode_eq_truncated_iff, decode_eq_notProduced_iff⟩

/-! ### Other function codes of the store (R68) -/

theorem classify_of_opcStore {w : Word} (hop : opcodeOf w = opcStore) (hf3 : funct3Of w ≠ funct3Sw) :
    classify w = .notProduced := by
  obtain ⟨hlui, haddi, hsw, hebreak⟩ := classify_iff w
  cases hc : classify w with
  | lui => exact absurd (hop.symm.trans (hlui.1 hc)) (by decide)
  | addi => exact absurd (hop.symm.trans (haddi.1 hc).1) (by decide)
  | sw => exact absurd (hsw.1 hc).2 hf3
  | ebreak =>
    rw [hebreak.1 hc] at hop
    exact absurd hop (by decide)
  | notProduced => rfl

/-- Opcode and function code of a word in the layout of the store (R54). -/
theorem selector_of_store_layout (hi : BitVec 7) (rs2 rs1 : RegId) (f : BitVec 3) (lo : BitVec 5)
    (op : BitVec 7) : opcodeOf (hi ++ rs2 ++ rs1 ++ f ++ lo ++ op) = op ∧
      funct3Of (hi ++ rs2 ++ rs1 ++ f ++ lo ++ op) = f := by
  simp only [← BitVec.toNat_inj, opcodeOf, funct3Of, toNat_slice, toNat_append_add]
  omega

/-- Settles O16: the word is in the opcode of the store, but not in the class of SW. -/
theorem otherStoreFunctionCodesAreRefused : Obligations.OtherStoreFunctionCodesAreRefused := by
  intro rs2 rs1 imm12 f hf
  obtain ⟨hop, hf3⟩ := selector_of_store_layout (slice imm12 5 7) rs2 rs1 f (slice imm12 0 5) opcStore
  refine (decodeWord_eq_none_iff _).2 (classify_of_opcStore hop ?_)
  rw [hf3]
  exact hf

namespace Machine

/-! ### The load-address idiom (R57, R58, R60, R74) -/

theorem toNat_upperValue (imm20 : Imm20) : (upperValue imm20).toNat = imm20.toNat * 2 ^ 12 :=
  (toNat_append_add imm20 0#12).trans (Nat.add_zero _)

/-- Sign extension as a number: the upper 20 bits are set where the pattern is negative (R58). -/
theorem toNat_lowerValue (imm12 : Imm12) :
    (lowerValue imm12).toNat = imm12.toNat + if 0x800 ≤ imm12.toNat then 0xFFFFF000 else 0 := by
  have hlt := imm12.isLt
  rw [lowerValue, sext32, BitVec.toNat_signExtend, BitVec.toNat_setWidth, BitVec.msb_eq_decide,
    Nat.mod_eq_of_lt (by omega)]
  simp

theorem toNat_split_hi20 (addr : Word) :
    (split addr).hi20.toNat = (addr.toNat + 0x800) % 2 ^ 32 / 2 ^ 12 := by
  have hadd : (addr + 0x800).toNat = (addr.toNat + 0x800) % 2 ^ 32 := BitVec.toNat_add addr 0x800
  rw [split, toNat_slice, hadd]
  omega

theorem toNat_split_lo12 (addr : Word) : (split addr).lo12.toNat = addr.toNat % 2 ^ 12 := by
  rw [split, toNat_slice]
  omega

/-- The values of SPLIT's two immediates add up to the address (R74): `0x800` is carried into the upper one
exactly where the lower one is negative. -/
theorem upperValue_add_lowerValue_split (addr : Word) :
    upperValue (split addr).hi20 + lowerValue (split addr).lo12 = addr := by
  apply BitVec.eq_of_toNat_eq
  rw [BitVec.toNat_add, toNat_upperValue, toNat_lowerValue, toNat_split_hi20, toNat_split_lo12]
  split <;> omega

/-- Settles O34: the ADDI reads what the LUI wrote. -/
theorem idiomLoadsAnyAddress : Obligations.IdiomLoadsAnyAddress := by
  intro s rd addr hrd
  refine ⟨_, _, rfl, rfl, ?_, ?_, ?_, by simp, by simp⟩
  · simpa [readReg_writeReg, hrd] using upperValue_add_lowerValue_split addr
  · intro r hr
    simp [readReg_writeReg, hr]
  · simp [BitVec.add_assoc]

/-! ### HINTs (R67) -/

/-- An instruction whose register write is discarded only advances the pc. -/
theorem exec_of_isHint {i : Instr} (h : i.isHint = true) (s : State) : exec i s = .next (advancePc s) := by
  cases i with
  | lui rd imm20 =>
    obtain rfl : rd = 0#5 := by simpa [Instr.isHint] using h
    rfl
  | addi rd rs1 imm12 =>
    obtain rfl : rd = 0#5 := by simpa [Instr.isHint] using h
    rfl
  | sw rs2 rs1 imm12 => cases h
  | ebreak => cases h

/-- Settles O33: the meaning of a HINT, and the words ENC_U and ENC_I give for one. -/
theorem hintsOnlyAdvanceThePc : Obligations.HintsOnlyAdvanceThePc :=
  ⟨fun _ s h => exec_of_isHint h s, fun imm20 => ⟨rfl, decodeWord_encode (.lui 0 imm20)⟩,
    fun rs1 imm12 => ⟨rfl, decodeWord_encode (.addi 0 rs1 imm12)⟩, by decide⟩

/-! ### Pseudo-instructions (R71) -/

/-- A printed pseudo-instruction expands to the instruction it was printed for. -/
theorem expandPseudo_of_pseudoOf {i : Instr} {q : Pseudo} (h : pseudoOf i = some q) :
    expandPseudo q = [i] := by
  cases i with
  | addi rd rs1 imm12 =>
    simp only [pseudoOf] at h
    split at h
    next hnop =>
      obtain ⟨rfl, rfl, rfl⟩ := hnop
      cases h
      rfl
    next =>
      split at h
      next hli =>
        subst hli
        cases h
        rfl
      next =>
        split at h
        next hmv =>
          subst hmv
          cases h
          rfl
        next => cases h
  | lui rd imm20 => cases h
  | sw rs2 rs1 imm12 => cases h
  | ebreak => cases h

/-- Settles O59: each printed form, and the expansion of `la`. -/
theorem pseudoInstructionsNameTheirWords : Obligations.PseudoInstructionsNameTheirWords :=
  ⟨fun _ _ => expandPseudo_of_pseudoOf, fun _ _ => rfl⟩

end Machine
end Sys2Proof

/-!
The family 40_splitter.md: the outputs of SPLIT as numbers (R73, R77), SPLIT and the idiom's value as
inverses of each other (R74, R75), and the incrementer form (R78).
-/

namespace Sys2Proof.Machine

/-! ### The signed value of the lower immediate (R9, R73) -/

/-- The signed value of a 12-bit pattern: `0x1000` is subtracted where bit 11 is set (R9). -/
theorem toInt_imm12 (l : Imm12) :
    l.toInt = if 0x800 ≤ l.toNat then (l.toNat : Int) - 0x1000 else (l.toNat : Int) := by
  rw [BitVec.toInt_eq_toNat_cond]
  split <;> split <;> omega

theorem toInt_split_lo12 (addr : Word) :
    (split addr).lo12.toInt =
      if 0x800 ≤ addr.toNat % 4096 then (addr.toNat % 4096 : Int) - 0x1000
      else (addr.toNat % 4096 : Int) := by
  rw [toInt_imm12, toNat_split_lo12]
  rfl

/-- Settles O1: each output as a number, and the source's concrete case. -/
theorem splitFollowsTheFormula : Obligations.SplitFollowsTheFormula :=
  ⟨fun addr => ⟨toNat_split_hi20 addr, toNat_split_lo12 addr, toInt_split_lo12 addr⟩, by decide⟩

/-! ### SPLIT and the value of a pair are inverse (R74, R75) -/

/-- The zero extension shifted left is the U immediate (R57). -/
theorem zext32_shiftLeft_eq_upperValue (h : Imm20) : zext32 h <<< 12 = upperValue h := by
  apply BitVec.eq_of_toNat_eq
  rw [toNat_upperValue, BitVec.toNat_shiftLeft, zext32, BitVec.toNat_setWidth, Nat.shiftLeft_eq]
  omega

theorem joined_eq (p : Split) : joined p = upperValue p.hi20 + lowerValue p.lo12 := by
  rw [joined, zext32_shiftLeft_eq_upperValue, lowerValue]

theorem joined_split (addr : Word) : joined (split addr) = addr :=
  (joined_eq _).trans (upperValue_add_lowerValue_split addr)

/-- The value of a pair as a number: a negative lower immediate borrows from the upper one. -/
theorem toNat_joined (p : Split) :
    (joined p).toNat =
      (p.hi20.toNat * 2 ^ 12 + (p.lo12.toNat + if 0x800 ≤ p.lo12.toNat then 0xFFFFF000 else 0)) %
        2 ^ 32 := by
  rw [joined_eq, BitVec.toNat_add, toNat_upperValue, toNat_lowerValue]

/-- Two pairs are equal when their outputs are equal as numbers. -/
theorem pair_eq_of_toNat_eq {p q : Split} (hhi : p.hi20.toNat = q.hi20.toNat)
    (hlo : p.lo12.toNat = q.lo12.toNat) : p = q := by
  cases p
  cases q
  exact congrArg₂ Split.mk (BitVec.eq_of_toNat_eq hhi) (BitVec.eq_of_toNat_eq hlo)

/-- SPLIT recovers the pair: the low 12 bits of its value are the lower immediate, and adding `0x800` takes
the borrow back (R75). -/
theorem split_joined (p : Split) : split (joined p) = p := by
  have hhi := p.hi20.isLt
  have hlo := p.lo12.isLt
  apply pair_eq_of_toNat_eq
  · rw [toNat_split_hi20, toNat_joined]
    split <;> omega
  · rw [toNat_split_lo12, toNat_joined]
    split <;> omega

/-- Settles O2: the pair's value is the address, and every 12-bit signed value lies in the range. -/
theorem splitRebuildsTheAddress : Obligations.SplitRebuildsTheAddress := by
  intro addr
  have hlt : (split addr).lo12.toInt < 2 ^ 11 := BitVec.toInt_lt
  exact ⟨joined_split addr, BitVec.le_toInt _, Int.le_of_lt_add_one hlt⟩

/-- Settles O3: SPLIT of a pair's value is that pair. -/
theorem splitPairIsUnique : Obligations.SplitPairIsUnique := by
  rintro _ h l rfl
  exact split_joined ⟨h, l⟩

/-! ### The sum in unbounded integers (R77) -/

/-- Settles O4: the upper immediate wraps to 0 exactly at the 2048 addresses from `0xFFFFF800` on. -/
theorem splitExactIntegerSum : Obligations.SplitExactIntegerSum := by
  intro addr
  have haddr := addr.isLt
  rw [toNat_split_hi20, toInt_split_lo12]
  by_cases hwrap : addr.toNat < 0xFFFFF800
  · rw [if_pos hwrap]
    split <;> omega
  · rw [if_neg hwrap, if_pos (by omega)]
    omega

/-! ### The incrementer form (R78) -/

theorem toNat_splitIncrementer_hi20 (addr : Word) :
    (splitIncrementer addr).hi20.toNat =
      (addr.toNat / 2 ^ 12 + addr.toNat / 2 ^ 11 % 2) % 2 ^ 20 := by
  rw [splitIncrementer, BitVec.toNat_add, BitVec.toNat_setWidth, toNat_slice, toNat_slice]
  omega

/-- Settles O5: adding `0x800` carries into bit 12 exactly when bit 11 is set; the lower outputs are the
same slice. -/
theorem splitIncrementerAgrees : Obligations.SplitIncrementerAgrees := by
  intro addr
  apply pair_eq_of_toNat_eq
  · rw [toNat_splitIncrementer_hi20, toNat_split_hi20]
    omega
  · rfl

end Sys2Proof.Machine

/-!
The family 41_encoder.md: the words of the four encoder units as numbers and the masking of their arguments
(R79 to R82), and the units of the block, each a function of its own ports (R18, R84, R85).
-/

namespace Sys2Proof.Machine

/-! ### ENC_U (R79) -/

/-- The three fields stand side by side, so the word is their weighted sum. -/
theorem toNat_encU (rd : RegId) (imm20 : Imm20) :
    (encU rd imm20).toNat = imm20.toNat * 2 ^ 12 + rd.toNat * 2 ^ 7 + 0b0110111 := by
  have hopc : opcLui.toNat = 0b0110111 := rfl
  rw [encU, toNat_append_add, toNat_append_add, hopc]
  omega

/-- Zero written to a register reads back, to `x0` included, which reads 0 in any case (R12). -/
theorem readReg_writeReg_zero_self (s : State) (r : RegId) : readReg (writeReg s r 0#32) r = 0#32 := by
  rw [readReg_writeReg]
  by_cases hr : r = 0#5 <;> simp [hr]

/-- `lui rd, 0` completes and clears `rd` (R79, R94). -/
theorem exec_lui_zero_clears (rd : RegId) (s : State) :
    ∃ t, exec (.lui rd 0) s = .next t ∧ readReg t rd = 0#32 := by
  have hzero : upperValue 0 = 0#32 := by decide
  refine ⟨_, rfl, ?_⟩
  rw [readReg_advancePc, hzero]
  exact readReg_writeReg_zero_self s rd

/-- Settles O6: the layout as a number, the masked calls, and the meaning of `lui rd, 0`. -/
theorem upperImmediateWordLayout : Obligations.UpperImmediateWordLayout :=
  ⟨toNat_encU, fun _ _ => rfl, by decide, by decide, by decide, exec_lui_zero_clears, by decide⟩

/-! ### ENC_I (R80) -/

theorem toNat_encI (rd rs1 : RegId) (imm12 : Imm12) :
    (encI rd rs1 imm12).toNat =
      imm12.toNat * 2 ^ 20 + rs1.toNat * 2 ^ 15 + 0b000 * 2 ^ 12 + rd.toNat * 2 ^ 7 + 0b0010011 := by
  have hopc : opcOpImm.toNat = 0b0010011 := rfl
  have hf3 : funct3Addi.toNat = 0b000 := rfl
  simp only [encI, toNat_append_add, hopc, hf3]
  omega

/-- The immediate field of a value-level call holds the masked argument, whatever the registers (R25). -/
theorem immIOf_encIValue (rd rs1 n : Int) : immIOf (encIValue rd rs1 n) = mask 12 n := by
  obtain ⟨-, -, -, -, himm⟩ := fields_encI (mask 5 rd) (mask 5 rs1) (mask 12 n)
  exact himm

/-- 2048 and -2048 have one masked pattern, so they give one word (R80). -/
theorem encIValue_2048 (rd rs1 : Int) : encIValue rd rs1 2048 = encIValue rd rs1 (-2048) :=
  congrArg (encI (mask 5 rd) (mask 5 rs1)) (by decide : mask 12 2048 = mask 12 (-2048))

/-- Settles O7: the layout as a number, the masked immediates, and the NOP and worked words. -/
theorem addImmediateWordLayout : Obligations.AddImmediateWordLayout := by
  refine ⟨toNat_encI, fun _ _ _ => rfl, fun rd rs1 => ?masked, by decide, by decide, by decide⟩
  case masked =>
    simp only [immIOf_encIValue]
    exact ⟨by decide, by decide, by decide, by decide, by decide, encIValue_2048 rd rs1⟩

/-! ### ENC_S (R81) -/

/-- The offset stands in two pieces: its quotient and its remainder by `2^5`. -/
theorem toNat_encS (rs2 rs1 : RegId) (imm12 : Imm12) :
    (encS rs2 rs1 imm12).toNat =
      imm12.toNat / 2 ^ 5 * 2 ^ 25 + rs2.toNat * 2 ^ 20 + rs1.toNat * 2 ^ 15 + 0b010 * 2 ^ 12 +
        imm12.toNat % 2 ^ 5 * 2 ^ 7 + 0b0100011 := by
  have hopc : opcStore.toNat = 0b0100011 := rfl
  have hf3 : funct3Sw.toNat = 0b010 := rfl
  simp only [encS, toNat_append_add, toNat_slice, hopc, hf3]
  omega

/-- Settles O8: the layout as a number, and the vectors of R81. -/
theorem storeWordLayout : Obligations.StoreWordLayout :=
  ⟨toNat_encS, fun _ _ _ => rfl, by decide, by decide, by decide, by decide, by decide⟩

/-! ### ENC_SYS (R82) -/

/-- Settles O9: the constant, and the image of a word written out for it. -/
theorem breakpointWordIsConstant : Obligations.BreakpointWordIsConstant := by
  refine ⟨rfl, ?_⟩
  rw [bytesLE_four]
  decide

/-! ### The units of the block (R18, R84, R85) -/

/-- Settles O25: the block's outputs are the units' by definition, so equal ports give equal outputs, STUB's
words are the encoder units' on the same operands (R85), and its image port is O23's. -/
theorem blockUnitsAreIndependent : Obligations.BlockUnitsAreIndependent := by
  refine ⟨fun x => ?units, fun x y => ?ownPorts, fun x => ?sameWords, fun x y => ?word2, ?image⟩
  case units => exact ⟨rfl, rfl, rfl, rfl, rfl, rfl, rfl, rfl, rfl, rfl, rfl, rfl⟩
  case ownPorts =>
    refine ⟨fun haddr => ?_, fun hrd himm => ?_, fun hrd hrs1 himm => ?_, fun hrs2 hrs1 himm => ?_, rfl,
      fun haddr ha hb => ?_⟩
    · simp only [block, haddr, and_self]
    · simp only [block, hrd, himm]
    · simp only [block, hrd, hrs1, himm]
    · simp only [block, hrs2, hrs1, himm]
    · simp only [block, haddr, ha, hb, and_self]
  case sameWords =>
    intro haddr hrd himm20 hird hirs1 himm12 hrs2 hrs1 hoffset
    simp only [block] at himm20 himm12
    simp only [block, stub, ← haddr, hrd, himm20, hird, hirs1, himm12, hrs2, hrs1, hoffset, and_self]
  case word2 =>
    intro hrd hrs1 himm
    simp only [block, stub, hrd, hrs1, himm, zeroReg]
  case image =>
    intro x i j hi hj
    obtain ⟨-, hbyte, -⟩ := stubImageBytes x.stAddr x.stScratchA x.stScratchB i j hi hj
    exact hbyte

end Sys2Proof.Machine

/-!
The family 42_stub_builder.md: the five words of STUB as instructions (R86), the closed form of the last
three (R87), and the inputs each word depends on (R89).
-/

namespace Sys2Proof.Machine

/-! ### The words as instructions (R86) -/

section Words

variable (addr : Word) (a b : RegId)

theorem decodeWord_stub_word0 :
    decodeWord (stub addr a b).word0 = some (.lui a (split addr).hi20) :=
  decodeWord_encode (.lui a (split addr).hi20)

theorem decodeWord_stub_word1 :
    decodeWord (stub addr a b).word1 = some (.addi a a (split addr).lo12) :=
  decodeWord_encode (.addi a a (split addr).lo12)

theorem decodeWord_stub_word2 : decodeWord (stub addr a b).word2 = some (.addi b 0 0x001) :=
  decodeWord_encode (.addi b 0 0x001)

theorem decodeWord_stub_word3 : decodeWord (stub addr a b).word3 = some (.sw b a 0x000) :=
  decodeWord_encode (.sw b a 0x000)

theorem decodeWord_stub_word4 : decodeWord (stub addr a b).word4 = some .ebreak :=
  decodeWord_encode .ebreak

end Words

/-- Settles O21: each word is the encoding of its instruction, and the list and the default registers are
the definitions'. -/
theorem stubWordsFollowTheAlgorithm : Obligations.StubWordsFollowTheAlgorithm :=
  ⟨fun addr a b => ⟨rfl, decodeWord_stub_word0 addr a b, decodeWord_stub_word1 addr a b,
    decodeWord_stub_word2 addr a b, decodeWord_stub_word3 addr a b, decodeWord_stub_word4 addr a b⟩,
    rfl, by decide⟩

/-! ### Register fields laid over a word (R87) -/

/-- ENC_I puts `rd` at bit 7 of the word that has 0 there: outside the field the shifted register
has no bit, inside it the word has none. -/
theorem encI_eq_or (rd rs1 : RegId) (imm12 : Imm12) :
    encI rd rs1 imm12 = encI 0 rs1 imm12 ||| (zext32 rd <<< 7) := by
  ext i hi
  simp only [encI, zext32, BitVec.getElem_or, BitVec.getElem_shiftLeft, BitVec.getElem_setWidth]
  grind

/-- ENC_S puts `rs2` at bit 20 and `rs1` at bit 15 of the word that has 0 there. -/
theorem encS_eq_or (rs2 rs1 : RegId) (imm12 : Imm12) :
    encS rs2 rs1 imm12 = encS 0 0 imm12 ||| (zext32 rs2 <<< 20) ||| (zext32 rs1 <<< 15) := by
  ext i hi
  simp only [encS, zext32, BitVec.getElem_or, BitVec.getElem_shiftLeft, BitVec.getElem_setWidth]
  grind

/-- Settles O22: the words with 0 in the register fields are the constants. -/
theorem stubClosedForm : Obligations.StubClosedForm := by
  intro addr a b
  have hword2 : encI 0 zeroReg 0x001 = 0x00100013 := by decide
  have hword3 : encS 0 0 0x000 = 0x00002023 := by decide
  refine ⟨?_, ?_, rfl⟩
  · exact (encI_eq_or b zeroReg 0x001).trans (congrArg (· ||| (zext32 b <<< 7)) hword2)
  · exact (encS_eq_or b a 0x000).trans
      (congrArg (· ||| (zext32 b <<< 20) ||| (zext32 a <<< 15)) hword3)

/-! ### The inputs a word depends on (R89) -/

/-- Two addresses with the same pair are the same address: the pair rebuilds it (R74). -/
theorem split_injective : Function.Injective split := Function.LeftInverse.injective joined_split

/-- Equal words are one instruction. -/
theorem eq_of_decodeWord_eq {v w : Word} {i j : Instr} (hv : decodeWord v = some i)
    (hw : decodeWord w = some j) (h : v = w) : i = j :=
  Option.some.inj (hv.symm.trans ((congrArg decodeWord h).trans hw))

/-- Words 0 and 1 carry SPLIT's pair and `scratch_a`, word 2 carries `scratch_b`. -/
theorem inputs_eq_of_stub_words_eq {addr addr' : Word} {a a' b b' : RegId}
    (h0 : (stub addr a b).word0 = (stub addr' a' b').word0)
    (h1 : (stub addr a b).word1 = (stub addr' a' b').word1)
    (h2 : (stub addr a b).word2 = (stub addr' a' b').word2) : addr = addr' ∧ a = a' ∧ b = b' := by
  obtain ⟨ha, hhi⟩ := Instr.lui.inj (eq_of_decodeWord_eq (decodeWord_stub_word0 addr a b)
    (decodeWord_stub_word0 addr' a' b') h0)
  obtain ⟨-, -, hlo⟩ := Instr.addi.inj (eq_of_decodeWord_eq (decodeWord_stub_word1 addr a b)
    (decodeWord_stub_word1 addr' a' b') h1)
  obtain ⟨hb, -, -⟩ := Instr.addi.inj (eq_of_decodeWord_eq (decodeWord_stub_word2 addr a b)
    (decodeWord_stub_word2 addr' a' b') h2)
  exact ⟨split_injective (pair_eq_of_toNat_eq (congrArg _ hhi) (congrArg _ hlo)), ha, hb⟩

/-- Settles O24: each word is a function of the inputs named for it, and the first three determine all. -/
theorem stubWordDependences : Obligations.StubWordDependences :=
  ⟨fun _ _ _ _ _ _ => ⟨rfl, rfl, rfl, rfl, rfl⟩, fun _ _ _ _ _ _ => inputs_eq_of_stub_words_eq⟩

end Sys2Proof.Machine

/-!
The family 43_target_semantics.md: what each instruction does and leaves unchanged (R94 to R97), the step and
what every step keeps (R93, R97, R98), and the stub on the hart (R100 to R102).
-/

namespace Sys2Proof.Machine

/-! ### The value of an address or a sum (R40, R95, R96) -/

/-- A base plus a signed immediate, as an integer modulo `2^32`. -/
theorem add_lowerValue_eq_ofInt (base : Word) (imm12 : Imm12) :
    base + lowerValue imm12 = BitVec.ofInt 32 (base.toNat + imm12.toInt) := by
  rw [BitVec.ofInt_add, BitVec.ofInt_natCast, BitVec.ofNat_toNat, BitVec.setWidth_eq]
  rfl

/-! ### Instructions that write a register (R94, R95) -/

theorem readReg_writeReg_self (s : State) (r : RegId) (v : Word) :
    readReg (writeReg s r v) r = if r = 0#5 then 0#32 else v := by
  rw [readReg_writeReg]
  by_cases hr : r = 0#5 <;> simp [hr]

theorem readReg_writeReg_of_ne {r r' : RegId} (s : State) (v : Word) (h : r' ≠ r) :
    readReg (writeReg s r v) r' = readReg s r' := by
  simp [readReg_writeReg, h]

/-- Settles O26: the register written holds the U immediate. -/
theorem luiLoadsUpperImmediate : Obligations.LuiLoadsUpperImmediate := by
  refine ⟨fun s rd imm20 => ⟨_, rfl, ?_, fun r hr => readReg_writeReg_of_ne s _ hr, ?_⟩, by decide⟩
  · rw [readReg_advancePc, readReg_writeReg_self, apply_ite BitVec.toNat, toNat_upperValue]
    rfl
  · simp

/-- Settles O27: the register written holds the sum, as an integer modulo `2^32`. -/
theorem addiAddsSignedImmediate : Obligations.AddiAddsSignedImmediate := by
  refine ⟨fun s rd rs1 imm12 => ⟨_, rfl, ?_, fun r hr => readReg_writeReg_of_ne s _ hr, ?_⟩, by decide,
    by decide⟩
  · rw [readReg_advancePc, readReg_writeReg_self, add_lowerValue_eq_ofInt]
    rfl
  · simp

/-- LUI and ADDI are one register write and the advance of the pc. -/
theorem exec_eq_writeReg_of_lui_or_addi {i : Instr} {rd : RegId} {s t : State}
    (hi : (∃ imm20, i = .lui rd imm20) ∨ ∃ rs1 imm12, i = .addi rd rs1 imm12)
    (h : exec i s = .next t) : ∃ v, t = advancePc (writeReg s rd v) := by
  obtain ⟨imm20, rfl⟩ | ⟨rs1, imm12, rfl⟩ := hi <;> cases h <;> exact ⟨_, rfl⟩

/-- Settles O35: a register write and an exception leave memory and parameters. -/
theorem frameOfLuiAddiAndEbreak : Obligations.FrameOfLuiAddiAndEbreak := by
  refine ⟨fun i rd s t hi h => ?_, fun s t h => ?_⟩
  · obtain ⟨v, rfl⟩ := exec_eq_writeReg_of_lui_or_addi hi h
    refine ⟨fun r hr => readReg_writeReg_of_ne s v hr, ?_, by simp⟩
    rintro rfl
    rfl
  · cases h
    exact ⟨fun _ => rfl, rfl, fun _ => rfl, rfl, rfl⟩

/-! ### The trap (R97) -/

/-- Settles O31: EBREAK is the trap, whatever the state. -/
theorem ebreakHaltsTheRun : Obligations.EbreakHaltsTheRun :=
  ⟨fun _ => ⟨_, rfl, rfl, rfl, fun _ => rfl, rfl, rfl⟩, by decide⟩

/-! ### The store (R96, R104, R108) -/

/-- The two checks in the statements' terms, alignment first (R104, R108). -/
theorem storeException_eq_ite (p : Params) (ea : Word) :
    storeException p ea =
      if ea.toNat % 4 ≠ 0 ∧ p.misalignedStore = .fault then some (.misalignedStore ea)
      else if storeAdmitted p ea = false then some (.accessFault ea)
      else none := by
  simp only [storeException, Bool.and_eq_true, Bool.not_eq_true', decide_eq_true_eq,
    wordAligned_eq_false_iff]

section Checks

variable {p : Params} {ea : Word}

theorem storeException_of_misaligned (hal : ea.toNat % 4 ≠ 0) (hm : p.misalignedStore = .fault) :
    storeException p ea = some (.misalignedStore ea) := by
  rw [storeException_eq_ite, if_pos ⟨hal, hm⟩]

theorem not_misaligned_fault_of_passes (hpass : ea.toNat % 4 = 0 ∨ p.misalignedStore = .perform) :
    ¬ (ea.toNat % 4 ≠ 0 ∧ p.misalignedStore = .fault) := by
  rintro ⟨hal, hm⟩
  obtain h | h := hpass
  · exact hal h
  · exact absurd (hm.symm.trans h) (by decide)

theorem storeException_of_unadmitted (hpass : ea.toNat % 4 = 0 ∨ p.misalignedStore = .perform)
    (hadm : storeAdmitted p ea = false) : storeException p ea = some (.accessFault ea) := by
  rw [storeException_eq_ite, if_neg (not_misaligned_fault_of_passes hpass), if_pos hadm]

theorem storeException_of_admitted (hpass : ea.toNat % 4 = 0 ∨ p.misalignedStore = .perform)
    (hadm : storeAdmitted p ea = true) : storeException p ea = none := by
  rw [storeException_eq_ite, if_neg (not_misaligned_fault_of_passes hpass), hadm]
  rfl

end Checks

section Sw

variable {s : State} {rs2 rs1 : RegId} {imm12 : Imm12} {ea : Word}

/-- SW where its checks raise nothing for the effective address. -/
theorem exec_sw_of_none (hea : effectiveAddress (readReg s rs1) imm12 = ea)
    (h : storeException s.params ea = none) :
    exec (.sw rs2 rs1 imm12) s = .next (advancePc (writeWord s ea (readReg s rs2))) := by
  subst hea
  obtain ⟨-, hx⟩ | ⟨e, he, -⟩ := execSw_cases rs2 rs1 imm12 s
  · exact hx
  · cases h.symm.trans he

/-- SW where its checks raise an exception for the effective address. -/
theorem exec_sw_of_some {e : Exception} (hea : effectiveAddress (readReg s rs1) imm12 = ea)
    (h : storeException s.params ea = some e) :
    exec (.sw rs2 rs1 imm12) s = .next (takeException e s) := by
  subst hea
  obtain ⟨hn, -⟩ | ⟨e', he, hx⟩ := execSw_cases rs2 rs1 imm12 s
  · cases h.symm.trans hn
  · cases h.symm.trans he
    exact hx

end Sw

/-- The effective address as the statements write it (R96). -/
theorem effectiveAddress_eq_of_eq_ofInt {base ea : Word} {imm12 : Imm12}
    (h : ea = BitVec.ofInt 32 (base.toNat + imm12.toInt)) : effectiveAddress base imm12 = ea :=
  (add_lowerValue_eq_ofInt base imm12).trans h.symm

/-- Settles O28: the checks pass, and the laws of memory say what the written word leaves. -/
theorem swStoresTheWord : Obligations.SwStoresTheWord := by
  intro s rs2 rs1 imm12 ea hwf hea hpass hadm
  exact ⟨_, exec_sw_of_none (effectiveAddress_eq_of_eq_ofInt hea) (storeException_of_admitted hpass hadm),
    fun _ hj => readByte_memWrite_of_lt (n := 4) ea (readReg s rs2) hwf (by decide) hj,
    fun a ha => readByte_writeWord_outside s ea _ a hwf ha,
    memRead_memWrite_same s.mem ea _ hwf, fun _ => rfl, rfl, rfl, rfl⟩

/-- Settles O29: the first check fails. -/
theorem swMisalignedEndsTheRun : Obligations.SwMisalignedEndsTheRun := fun _ _ _ _ _ hea hal hm =>
  exec_sw_of_some (effectiveAddress_eq_of_eq_ofInt hea) (storeException_of_misaligned hal hm)

/-- Settles O30: the first check passes and the second fails. -/
theorem swUnadmittedEndsTheRun : Obligations.SwUnadmittedEndsTheRun := fun _ _ _ _ _ hea hpass hadm =>
  exec_sw_of_some (effectiveAddress_eq_of_eq_ofInt hea) (storeException_of_unadmitted hpass hadm)

/-- Settles O36: a store that completes leaves the status, one that raises an exception leaves memory. -/
theorem frameOfSw : Obligations.FrameOfSw := by
  intro rs2 rs1 imm12 s t hwf h
  obtain ⟨-, hx⟩ | ⟨e, -, hx⟩ := execSw_cases rs2 rs1 imm12 s <;> cases h.symm.trans hx
  · refine ⟨fun _ => rfl, rfl, rfl, ?_, fun hst => absurd rfl hst⟩
    rintro ea rfl a ha
    exact readByte_writeWord_outside s _ _ a hwf ha
  · exact ⟨fun _ => rfl, rfl, rfl, fun _ _ _ _ => rfl, fun _ => ⟨rfl, fun _ => rfl⟩⟩

/-! ### The step (R93, R98, R99) -/

/-- Fetching a word that is the encoding of an instruction (R93). -/
theorem fetch_of_fetchWord_eq_encode {s : State} {i : Instr} (hal : s.pc.toNat % 4 = 0)
    (hw : fetchWord s = encode i) : fetch s = .ok i := by
  have hd : decodeWord (fetchWord s) = some i := by rw [hw, decodeWord_encode]
  simp [fetch, (wordAligned_iff s.pc).2 hal, hd]

/-- Fetching where the image of an instruction stands at the pc (R36, R50). -/
theorem fetch_of_loadBytes_eq_encodeBytes {s : State} {i : Instr} (hal : s.pc.toNat % 4 = 0)
    (hb : s.mem.loadBytes s.pc 4 = encodeBytes i) : fetch s = .ok i := by
  refine fetch_of_fetchWord_eq_encode hal ?_
  rw [fetchWord, memRead, hb]
  exact ofBytesLE_bytesLE 4 (encode i)

/-- Settles O37: bytes that decode to an instruction are its image. -/
theorem stepRunsTheDecodedInstruction : Obligations.StepRunsTheDecodedInstruction := by
  intro s i hs hal hd
  have hb : s.mem.loadBytes s.pc 4 = encodeBytes i := by simpa using eq_encodeBytes_of_decode hd
  exact step_of_fetch hs (fetch_of_loadBytes_eq_encodeBytes hal hb)

/-- Settles O38: the two refusals of a fetch. -/
theorem stepRefusesByName : Obligations.StepRefusesByName := by
  intro s hs
  refine ⟨fun hal => ?_, fun hal hc => ?_⟩
  · have hf : fetch s = .error (.misalignedFetch s.pc) := by
      simp [fetch, (wordAligned_eq_false_iff s.pc).2 hal]
    exact step_of_refused hs hf
  · have hd : decodeWord (fetchWord s) = none := (decodeWord_eq_none_iff _).2 hc
    have hf : fetch s = .error (.notProduced (fetchWord s)) := by
      simp [fetch, (wordAligned_iff s.pc).2 hal, hd]
    exact step_of_refused hs hf

theorem exec_answers_next (i : Instr) (s : State) : ∃ t, exec i s = .next t := by
  obtain ⟨_, _, h⟩ | ⟨_, _, h⟩ | ⟨_, h⟩ := exec_cases i s <;> exact ⟨_, h⟩

/-- Settles O39: every instruction completes, and a refused fetch has a next state too. -/
theorem runningStateAlwaysSteps : Obligations.RunningStateAlwaysSteps := by
  intro s hs
  cases hf : fetch s with
  | ok i =>
    rw [step_of_fetch hs hf]
    exact exec_answers_next i s
  | error r => exact ⟨_, step_of_refused hs hf⟩

/-- Settles O41, by the three things a step can do. -/
theorem stepAdvancesOrEnds : Obligations.StepAdvancesOrEnds := by
  intro s t h
  obtain ⟨hs, ⟨rd, v, rfl⟩ | ⟨rs2, rs1, imm12, -, rfl⟩ | ⟨st, hst, rfl⟩⟩ := step_next_cases h
  · exact .inl ⟨by simpa using hs, by simp [BitVec.toNat_add]⟩
  · exact .inl ⟨hs, by simp [BitVec.toNat_add]⟩
  · exact .inr ⟨hst, rfl⟩

/-- Settles O49: 4 divides `2^32`, so the advance keeps multiples of 4. -/
theorem stepKeepsThePcAligned : Obligations.StepKeepsThePcAligned := by
  intro s t hal h
  obtain ⟨-, hpc⟩ | ⟨-, hpc⟩ := stepAdvancesOrEnds s t h
  · omega
  · rwa [hpc]

/-! ### The invariant (R93, R97 to R99) -/

theorem step_keeps_mem_wf {s t : State} (hwf : s.mem.wf = true) (h : step s = .next t) :
    t.mem.wf = true := by
  obtain ⟨-, ⟨rd, v, rfl⟩ | ⟨rs2, rs1, imm12, -, rfl⟩ | ⟨st, -, rfl⟩⟩ := step_next_cases h
  · simpa using hwf
  · exact writeWord_wf s _ _ hwf
  · exact hwf

theorem step_keeps_x0SlotZero {s t : State} (hx0 : X0SlotZero s) (h : step s = .next t) :
    X0SlotZero t := by
  obtain ⟨-, ⟨rd, v, rfl⟩ | ⟨rs2, rs1, imm12, -, rfl⟩ | ⟨st, -, rfl⟩⟩ := step_next_cases h
  · exact writeReg_slot_zero s rd v hx0
  · exact hx0
  · exact hx0

theorem statusTruthful_of_running {s : State} (hs : s.status = .running) : StatusTruthful s := by
  simp [StatusTruthful, hs]

/-- An SW that ends the run leaves the state its checks looked at (R96, R98). -/
theorem statusTruthful_of_storeException {s : State} {rs2 rs1 : RegId} {imm12 : Imm12} {e : Exception}
    (hf : fetch s = .ok (.sw rs2 rs1 imm12))
    (he : storeException s.params (effectiveAddress (readReg s rs1) imm12) = some e) :
    StatusTruthful (takeException e s) := by
  have hstore : StoreAtPc s (effectiveAddress (readReg s rs1) imm12) := ⟨rs2, rs1, imm12, hf, rfl⟩
  obtain ⟨hal, hm, h⟩ | ⟨hpass, hadm, h⟩ | ⟨-, -, h⟩ := storeException_cases s.params
    (effectiveAddress (readReg s rs1) imm12) <;> rw [he] at h
  · cases h
    exact ⟨hstore, hal, hm⟩
  · cases h
    exact ⟨hstore, hadm, hpass⟩
  · cases h

/-- The instruction fetched from a `Running` state leaves a truthful status (R94 to R97). -/
theorem exec_statusTruthful {i : Instr} {s t : State} (hs : s.status = .running) (hf : fetch s = .ok i)
    (h : exec i s = .next t) : StatusTruthful t := by
  cases i with
  | lui rd imm20 =>
    cases h
    exact statusTruthful_of_running (by simpa using hs)
  | addi rd rs1 imm12 =>
    cases h
    exact statusTruthful_of_running (by simpa using hs)
  | sw rs2 rs1 imm12 =>
    obtain ⟨-, h'⟩ | ⟨e, he, h'⟩ := execSw_cases rs2 rs1 imm12 s <;> rw [h] at h' <;> cases h'
    · exact statusTruthful_of_running hs
    · exact statusTruthful_of_storeException hf he
  | ebreak =>
    cases h
    exact ⟨rfl, hf⟩

theorem step_statusTruthful {s t : State} (h : step s = .next t) : StatusTruthful t := by
  obtain ⟨hs, ⟨i, hf, hx⟩ | ⟨r, hf, rfl⟩⟩ := step_cases h
  · exact exec_statusTruthful hs hf hx
  · exact hf

/-- Settles O47: each of the three parts is kept, and the last holds after any step. -/
theorem stepKeepsTheInvariant : Obligations.StepKeepsTheInvariant := by
  rintro s t ⟨hwf, hx0, -⟩ h
  exact ⟨step_keeps_mem_wf hwf h, step_keeps_x0SlotZero hx0 h, step_statusTruthful h⟩

/-! ### A word placed for the next step (log entry 16) -/

theorem withFetchWord_toNat (s : State) (w : Word) : s.withFetchWord 32 w.toNat = placeFetchWord s w := by
  rw [State.withFetchWord, Nat.mod_eq_of_lt w.isLt, BitVec.ofNat_toNat, BitVec.setWidth_eq]

theorem placeFetchWord_pc_aligned (s : State) (w : Word) : (placeFetchWord s w).pc.toNat % 4 = 0 := by
  have hlow : slice (0xFFFFFFFC : Word) 0 2 = 0 := by decide
  have hpc : (placeFetchWord s w).pc = s.pc &&& 0xFFFFFFFC := rfl
  rw [← wordAligned_iff, hpc, wordAligned, slice_and, hlow]
  simp

theorem fetchWord_placeFetchWord {s : State} (w : Word) (hwf : s.mem.wf = true) :
    fetchWord (placeFetchWord s w) = w :=
  memRead_memWrite_same s.mem (s.pc &&& 0xFFFFFFFC) w hwf

theorem decodeTableWord_toNat (w : Word) : decodeTableWord 32 w.toNat = decodeWord w := by
  have hd := decode_bytesLE_append w []
  rw [List.append_nil] at hd
  rw [decodeTableWord, Nat.mod_eq_of_lt w.isLt, BitVec.ofNat_toNat, BitVec.setWidth_eq, hd]
  cases decodeWord w <;> rfl

/-- Settles O46: the placed word is fetched back, and decodes to the instruction. -/
theorem placedWordRunsNext : Obligations.PlacedWordRunsNext := by
  intro s i hwf
  rw [withFetchWord_toNat, decodeTableWord_toNat]
  have hf : fetch (placeFetchWord s (encode i)) = .ok i :=
    fetch_of_fetchWord_eq_encode (placeFetchWord_pc_aligned s _) (fetchWord_placeFetchWord _ hwf)
  exact ⟨step_of_fetch rfl hf, decodeWord_encode i⟩

/-! ### Programs in memory (R36, R37, R93) -/

/-- A load of `n + k` bytes is a load of `n` and, from there on, a load of `k` (R41). -/
theorem loadBytes_add (m : Memory) (addr : Word) (n k : Nat) :
    m.loadBytes addr (n + k) = m.loadBytes addr n ++ m.loadBytes (addr + BitVec.ofNat 32 n) k := by
  induction n generalizing addr with
  | zero => simp [Memory.loadBytes]
  | succ n ih =>
    have haddr : addr + BitVec.ofNat 32 (n + 1) = addr + 1 + BitVec.ofNat 32 n := by
      rw [BitVec.add_assoc, Nat.add_comm, BitVec.ofNat_add]
      rfl
    rw [Nat.succ_add, Memory.loadBytes, ih, haddr, Memory.loadBytes, List.cons_append]

/-- Where the images of a list of instructions stand in order, image `k` stands `4k` bytes in (R37). -/
theorem loadBytes_eq_encodeBytes_of_program {m : Memory} {p : Word} {is : List Instr} {k : Nat}
    (h : m.loadBytes p (4 * is.length) = is.flatMap encodeBytes) (hk : k < is.length) :
    m.loadBytes (p + BitVec.ofNat 32 (4 * k)) 4 = encodeBytes is[k] := by
  induction is generalizing p k with
  | nil => simp at hk
  | cons i is ih =>
    have hlen : 4 * (i :: is).length = 4 + 4 * is.length := by rw [List.length_cons]; omega
    rw [hlen, loadBytes_add, List.flatMap_cons] at h
    obtain ⟨hhead, htail⟩ := List.append_inj h (by simp [encodeBytes])
    cases k with
    | zero => simpa using hhead
    | succ k =>
      have haddr : p + BitVec.ofNat 32 (4 * (k + 1)) =
          p + BitVec.ofNat 32 4 + BitVec.ofNat 32 (4 * k) := by
        rw [BitVec.add_assoc, ← BitVec.ofNat_add, Nat.mul_succ, Nat.add_comm]
      rw [haddr]
      exact ih htail (Nat.lt_of_succ_lt_succ hk)

/-- One more step of a run that answers a next state. -/
theorem run_succ_of_run {M : Host.Core} {k : Nat} {s u : M.State} (h : M.run k s = .next u) :
    M.run (k + 1) s = M.step u := by
  induction k generalizing s with
  | zero =>
    obtain rfl : s = u := Host.Outcome.next.inj h
    rw [Host.Core.run]
    cases M.step s <;> rfl
  | succ k ih =>
    obtain ⟨v, hv, hrun⟩ := run_succ_eq_next h
    rw [Host.Core.run, hv]
    exact ih hrun

/-! ### The stub's instructions (R86) -/

/-- The instructions the stub's words stand for. -/
def stubProgram (t : Word) (a b : RegId) : List Instr :=
  [.lui a (split t).hi20, .addi a a (split t).lo12, .addi b zeroReg 0x001, .sw b a 0x000, .ebreak]

theorem stubImage_eq_flatMap_encodeBytes (t : Word) (a b : RegId) :
    stubImage t a b = (stubProgram t a b).flatMap encodeBytes := rfl

/-- A run that has come to word `k` of a placed stub executes that word next. -/
theorem run_succ_of_stubPlaced {s u : State} {p t : Word} {a b : RegId} {k : Nat}
    (hrun : Host.Core.run Sys2Proof.core k s = .next u) (hs : u.status = .running)
    (hal : p.toNat % 4 = 0) (hpl : stubPlaced u.mem p t a b = true)
    (hpc : u.pc = p + BitVec.ofNat 32 (4 * k)) (hk : k < 5) :
    Host.Core.run Sys2Proof.core (k + 1) s = exec ((stubProgram t a b)[k]'hk) u := by
  have himage : u.mem.loadBytes p 20 = (stubProgram t a b).flatMap encodeBytes := by
    simpa [stubPlaced, stubImage_eq_flatMap_encodeBytes] using hpl
  have hb := loadBytes_eq_encodeBytes_of_program (is := stubProgram t a b) himage hk
  rw [← hpc] at hb
  have halu : u.pc.toNat % 4 = 0 := by
    rw [hpc, toNat_add_ofNat]
    omega
  exact (run_succ_of_run hrun).trans (step_of_fetch hs (fetch_of_loadBytes_eq_encodeBytes halu hb))

/-! ### The stub's registers (R100, R101) -/

theorem writeReg_writeReg_self (s : State) (r : RegId) (u v : Word) :
    writeReg (writeReg s r u) r v = writeReg s r v := by
  by_cases hr : r = 0#5
  · subst hr
    rfl
  · simp [writeReg_of_ne, hr]

/-- The second instruction of the idiom leaves the address, or nothing in `x0` (R60, R74). -/
theorem writeReg_idiom (s : State) (a : RegId) (t : Word) :
    writeReg (writeReg s a (upperValue (split t).hi20)) a
        (readReg (writeReg s a (upperValue (split t).hi20)) a + lowerValue (split t).lo12) =
      writeReg s a t := by
  by_cases ha : a = 0#5
  · subst ha
    rfl
  · rw [readReg_writeReg_self, if_neg ha, upperValue_add_lowerValue_split, writeReg_writeReg_self]

/-- The state at the stub's SW, whatever the two registers are. -/
def stubAtSw (s : State) (p t : Word) (a b : RegId) : State :=
  { writeReg (writeReg s a t) b 1#32 with pc := p + 12 }

/-- The state after a stub's SW that stored `v` at `ea`. -/
def stubStored (s : State) (p t : Word) (a b : RegId) (ea v : Word) : State :=
  { writeReg (writeReg s a t) b 1#32 with pc := p + 16, mem := memWrite s.mem ea 4 v }

/-- The state in which a stub that stored `v` at `ea` halts. -/
def stubHalted (s : State) (p t : Word) (a b : RegId) (ea v : Word) : State :=
  takeException (.breakpoint (p + 16)) (stubStored s p t a b ea v)

section Registers

variable (s : State) (p t : Word) (a b : RegId)

@[simp] theorem stubAtSw_mem : (stubAtSw s p t a b).mem = s.mem := by simp [stubAtSw]
@[simp] theorem stubAtSw_status : (stubAtSw s p t a b).status = s.status := by simp [stubAtSw]
@[simp] theorem stubAtSw_params : (stubAtSw s p t a b).params = s.params := by simp [stubAtSw]
@[simp] theorem stubStored_status (ea v : Word) : (stubStored s p t a b ea v).status = s.status := by
  simp [stubStored]
@[simp] theorem stubHalted_params (ea v : Word) : (stubHalted s p t a b ea v).params = s.params := by
  simp [stubHalted, stubStored]

end Registers

section Operands

variable (s : State) (p t : Word) {a b : RegId}

/-- What the stub stores, unless it reads `x0` (R101). -/
theorem readReg_stubAtSw_value (hb : b ≠ 0#5) : readReg (stubAtSw s p t a b) b = 1#32 :=
  (readReg_writeReg_self (writeReg s a t) b 1#32).trans (if_neg hb)

/-- Where the stub stores, unless it reads `x0` or has lost the address (R101). -/
theorem readReg_stubAtSw_address (hab : a ≠ b) (ha : a ≠ 0#5) :
    readReg (stubAtSw s p t a b) a = t :=
  (readReg_writeReg_of_ne (writeReg s a t) 1#32 hab).trans
    ((readReg_writeReg_self s a t).trans (if_neg ha))

theorem readReg_stubAtSw_other {r : RegId} (ha : r ≠ a) (hb : r ≠ b) :
    readReg (stubAtSw s p t a b) r = readReg s r :=
  (readReg_writeReg_of_ne (writeReg s a t) 1#32 hb).trans (readReg_writeReg_of_ne s t ha)

end Operands

/-! ### The stub step by step (R100) -/

theorem exec_addi_at_pc (s : State) (p : Word) (rd rs1 : RegId) (imm12 : Imm12) :
    exec (.addi rd rs1 imm12) { s with pc := p } =
      .next { writeReg s rd (readReg s rs1 + lowerValue imm12) with pc := p + 4 } :=
  congrArg (fun u => Host.Outcome.next (advancePc u)) (writeReg_at_pc s p rd _)

theorem effectiveAddress_zero (base : Word) : effectiveAddress base 0x000 = base := by
  have hzero : lowerValue 0x000 = 0#32 := by decide
  rw [effectiveAddress, hzero, BitVec.add_zero]

/-- The SW's word written and the pc advanced. -/
theorem advancePc_writeWord_stubAtSw (s : State) (p t : Word) (a b : RegId) (ea v : Word) :
    advancePc (writeWord (stubAtSw s p t a b) ea v) = stubStored s p t a b ea v := by
  have hpc : p + 12 + 4 = p + 16 := BitVec.add_assoc p 12 4
  rw [stubStored, ← stubAtSw_mem s p t a b, ← hpc]
  rfl

section Run

variable {s : State} {p t ea v : Word} {a b : RegId} (h : StubAtEntry s p t a b)
include h

theorem run_stub_one : Host.Core.run Sys2Proof.core 1 s =
    .next { writeReg s a ((split t).hi20 ++ 0#12) with pc := p + 4 } := by
  have hpc : s.pc = p + 0#32 := h.at_stub.trans (BitVec.add_zero p).symm
  refine (run_succ_of_stubPlaced rfl h.running h.aligned h.placed hpc (by decide)).trans ?_
  have hnext : p + 4 = (advancePc (writeReg s a (upperValue (split t).hi20))).pc := by simp [h.at_stub]
  rw [hnext]
  rfl

theorem run_stub_two : Host.Core.run Sys2Proof.core 2 s =
    .next { writeReg s a t with pc := p + 8 } := by
  refine (run_succ_of_stubPlaced (run_stub_one h) (by simpa using h.running) h.aligned
    (by simpa using h.placed) rfl (by decide)).trans ((exec_addi_at_pc _ _ a a _).trans ?_)
  rw [BitVec.add_assoc]
  exact congrArg (fun u : State => Host.Outcome.next { u with pc := p + 8 }) (writeReg_idiom s a t)

theorem run_stub_three : Host.Core.run Sys2Proof.core 3 s = .next (stubAtSw s p t a b) := by
  have hone : readReg (writeReg s a t) zeroReg + lowerValue 0x001 = 1#32 :=
    (by decide : 0#32 + lowerValue 0x001 = 1#32)
  refine (run_succ_of_stubPlaced (run_stub_two h) (by simpa using h.running) h.aligned
    (by simpa using h.placed) rfl (by decide)).trans ((exec_addi_at_pc _ _ b zeroReg _).trans ?_)
  rw [hone, BitVec.add_assoc]
  rfl

/-- The fourth step is SW, at the address register's value. -/
theorem run_stub_four : Host.Core.run Sys2Proof.core 4 s =
    exec (.sw b a 0x000) (stubAtSw s p t a b) :=
  run_succ_of_stubPlaced (run_stub_three h) (by simpa using h.running) h.aligned
    (by simpa using h.placed) rfl (by decide)

/-- The stub's SW where its checks raise an exception (R101). -/
theorem run_stub_four_of_some {e : Exception} (hea : readReg (stubAtSw s p t a b) a = ea)
    (hx : storeException s.params ea = some e) :
    Host.Core.run Sys2Proof.core 4 s = .next (takeException e (stubAtSw s p t a b)) :=
  (run_stub_four h).trans
    (exec_sw_of_some ((effectiveAddress_zero _).trans hea) (by simpa using hx))

variable (hea : readReg (stubAtSw s p t a b) a = ea) (hv : readReg (stubAtSw s p t a b) b = v)
  (hx : storeException s.params ea = none)
include hea hv hx

/-- The stub's SW where its checks raise nothing. -/
theorem run_stub_four_of_none :
    Host.Core.run Sys2Proof.core 4 s = .next (stubStored s p t a b ea v) := by
  subst hv
  have hsw := exec_sw_of_none (rs2 := b) ((effectiveAddress_zero _).trans hea) (by simpa using hx)
  rw [advancePc_writeWord_stubAtSw] at hsw
  exact (run_stub_four h).trans hsw

/-- The stub halts where its SW completes outside its image (R100, R101). -/
theorem run_stub_five (hwf : s.mem.wf = true) (ho : noOverlap ea p) :
    Host.Core.run Sys2Proof.core 5 s = .next (stubHalted s p t a b ea v) :=
  run_succ_of_stubPlaced (run_stub_four_of_none h hea hv hx) (by simpa using h.running) h.aligned
    (stubPlaced_memWrite ea v hwf h.placed ho) rfl (by decide)

end Run

/-! ### The stub with its intended meaning (R100, R102) -/

section Premises

variable {s : State} {p t : Word} {a b : RegId}

theorem StubPremises.address (h : StubPremises s p t a b) : readReg (stubAtSw s p t a b) a = t :=
  readReg_stubAtSw_address s p t h.distinct h.a_ne_zero

theorem StubPremises.value (h : StubPremises s p t a b) : readReg (stubAtSw s p t a b) b = 1#32 :=
  readReg_stubAtSw_value s p t h.b_ne_zero

theorem StubPremises.no_exception (h : StubPremises s p t a b) : storeException s.params t = none :=
  storeException_of_admitted h.target h.admitted

theorem StubPremises.run_five (h : StubPremises s p t a b) (hwf : s.mem.wf = true) :
    Host.Core.run Sys2Proof.core 5 s = .next (stubHalted s p t a b t 1#32) :=
  run_stub_five h.entry h.address h.value h.no_exception hwf h.apart

end Premises

/-- Settles O51: the five runs. -/
theorem stubFiveSteps : Obligations.StubFiveSteps := by
  intro s p t a b hwf h
  exact ⟨run_stub_one h.entry, run_stub_two h.entry, run_stub_three h.entry,
    run_stub_four_of_none h.entry h.address h.value h.no_exception, h.run_five hwf⟩

/-- The bytes loaded where a word was stored are its image (R36, R41). -/
theorem loadBytes_memWrite_same (m : Memory) (addr v : Word) (hwf : m.wf = true) :
    (memWrite m addr 4 v).loadBytes addr 4 = bytesLE 4 v :=
  loadBytes_storeBytes m addr (bytesLE 4 v) hwf (by rw [length_bytesLE]; decide)

theorem bytesLE_one : bytesLE 4 1#32 = [0x01, 0x00, 0x00, 0x00] := by
  rw [bytesLE_four]
  decide

/-- Settles O52: the end state of O51, read register by register and byte by byte. -/
theorem stubSignalsCompletion : Obligations.StubSignalsCompletion := by
  intro s p t a b hwf h
  have hread : memRead (memWrite s.mem t 4 1#32) t 4 = completionValue :=
    memRead_memWrite_same s.mem t 1#32 hwf
  refine ⟨_, h.run_five hwf, ⟨rfl, hread⟩, rfl, ?_, h.address, h.value,
    fun r ha hb => readReg_stubAtSw_other s p t ha hb,
    fun x hx => readByte_memWrite_of_ne (n := 4) t 1#32 hwf hx, ?_⟩
  · exact (loadBytes_memWrite_same s.mem t 1#32 hwf).trans bytesLE_one
  · intro ht
    rw [tohostWord, stubHalted_params, ← ht]
    exact hread

/-! ### The stub with other registers or targets (R101) -/

/-- Settles O53: the store goes to the value of `x0`. -/
theorem stubWithZeroAddressRegister : Obligations.StubWithZeroAddressRegister := by
  intro s p t b hwf h hb ho hadm
  have haddress : readReg (stubAtSw s p t 0#5 b) 0#5 = 0#32 := rfl
  have hvalue : readReg (stubAtSw s p t 0#5 b) b = 1#32 := readReg_stubAtSw_value s p t hb
  have hx : storeException s.params 0#32 = none := storeException_of_admitted (.inl rfl) hadm
  refine ⟨_, run_stub_five h haddress hvalue hx hwf ho, rfl, memRead_memWrite_same s.mem _ _ hwf, hvalue,
    fun r hr => readReg_writeReg_of_ne s 1#32 hr, fun x hx4 => ?_⟩
  refine readByte_memWrite_of_ne (n := 4) 0#32 1#32 hwf fun j hj => ?_
  rw [BitVec.toNat_zero]
  omega

/-- Settles O54: the store takes the value of `x0`. -/
theorem stubWithZeroValueRegister : Obligations.StubWithZeroValueRegister := by
  intro s p t a hwf h ha hal ho hadm
  have haddress : readReg (stubAtSw s p t a 0#5) a = t := readReg_stubAtSw_address s p t ha ha
  have hx : storeException s.params t = none := storeException_of_admitted (.inl hal) hadm
  have hread : memRead (memWrite s.mem t 4 0#32) t 4 = 0#32 := memRead_memWrite_same s.mem t 0#32 hwf
  refine ⟨_, run_stub_five h haddress rfl hx hwf ho, rfl, hread, ?_, haddress,
    fun r hr => readReg_writeReg_of_ne s t hr⟩
  rintro ⟨-, hone⟩
  exact absurd (hread.symm.trans hone) (by decide)

/-- Settles O55: the value has overwritten the address, so the store goes to address 1. -/
theorem stubWithEqualRegisters : Obligations.StubWithEqualRegisters := by
  intro s p t a hwf h ha
  have hone : readReg (stubAtSw s p t a a) a = 1#32 := readReg_stubAtSw_value s p t ha
  refine ⟨fun hm => ?_, fun hm hadm ho => ?_⟩
  · have hx : storeException s.params 1#32 = some (.misalignedStore 1#32) :=
      storeException_of_misaligned (by decide) hm
    exact ⟨_, run_stub_four_of_some h hone hx, rfl, rfl, stubAtSw_mem s p t a a, hone⟩
  · have hx : storeException s.params 1#32 = none := storeException_of_admitted (.inr hm) hadm
    exact ⟨_, run_stub_five h hone hone hx hwf ho, rfl,
      (loadBytes_memWrite_same s.mem 1#32 1#32 hwf).trans bytesLE_one⟩

/-- Settles O56: address and value are those of `x0`, and no register is written. -/
theorem stubWithBothRegistersZero : Obligations.StubWithBothRegistersZero := by
  intro s p t hwf h ho hadm
  have hx : storeException s.params 0#32 = none := storeException_of_admitted (.inl rfl) hadm
  exact ⟨_, run_stub_five h rfl rfl hx hwf ho, rfl, memRead_memWrite_same s.mem _ _ hwf, fun _ => rfl⟩

/-- Settles O57: the first check of the store fails. -/
theorem stubWithMisalignedTarget : Obligations.StubWithMisalignedTarget := by
  intro s p t a b _ h ha hb hab hal hm
  have haddress : readReg (stubAtSw s p t a b) a = t := readReg_stubAtSw_address s p t hab ha
  exact ⟨_, run_stub_four_of_some h haddress (storeException_of_misaligned hal hm), rfl, rfl,
    stubAtSw_mem s p t a b, haddress, readReg_stubAtSw_value s p t hb⟩

end Sys2Proof.Machine

/-!
The family 60_exceptions.md: the exception table (R104, R108, R109), the platform's admission predicate
(R105), and the parameters that no step reads (R111, R112).
-/

namespace Sys2Proof.Machine

/-! ### The exception table (R104, R108, R109) -/

/-- Settles O32: the columns are the definitions of R104, the conditions are `storeException_eq_ite`, and an
SW does what its checks answer. -/
theorem exceptionTable : Obligations.ExceptionTable := by
  refine ⟨fun _ => ⟨rfl, rfl, rfl, rfl, rfl, rfl, rfl, rfl, rfl⟩, fun _ _ => rfl, storeException_eq_ite,
    fun _ => rfl, fun rs2 rs1 imm12 s => ⟨fun e he => exec_sw_of_some rfl he, fun hn => ?_⟩,
    fun rd rs1 imm20 imm12 s => ⟨⟨_, rfl, ?_⟩, ⟨_, rfl, ?_⟩⟩⟩
  · exact ⟨_, exec_sw_of_none rfl hn, rfl⟩
  · exact writeReg_status s rd _
  · exact writeReg_status s rd _

/-! ### Admission by ranges (R105, log entry 6) -/

/-- The addresses of a list that satisfy a predicate, each as a range of one address. -/
def pointRegions (f : Word → Bool) (as : List Word) : List Region :=
  (as.filter f).map fun a => ⟨a.toNat, a.toNat⟩

theorem regionHolds_point (a ea : Word) : regionHolds ⟨a.toNat, a.toNat⟩ ea = true ↔ a = ea := by
  rw [regionHolds, ← Bool.decide_and, decide_eq_true_eq, ← le_antisymm_iff, BitVec.toNat_inj]

theorem storeAdmitted_pointRegions_iff (f : Word → Bool) (p : Params) (as : List Word) (ea : Word) :
    storeAdmitted { p with admitted := pointRegions f as } ea = true ↔ ea ∈ as ∧ f ea = true := by
  simp [storeAdmitted, pointRegions, regionHolds_point]

/-- Settles O45: the addresses are finitely many, so one range for each address that is to be admitted. -/
theorem everyAdmissionPredicateIsHeld : Obligations.EveryAdmissionPredicateIsHeld := by
  intro f p
  refine ⟨pointRegions f (Finset.univ : Finset Word).toList, fun ea => Bool.eq_iff_iff.2 ?_⟩
  rw [storeAdmitted_pointRegions_iff]
  exact and_iff_right (Finset.mem_toList.2 (Finset.mem_univ ea))

/-! ### The parameters that no step reads (R111, R112) -/

/-- The same state under another `TARGET_PRIV` and another `TOHOST` (R111, R112). -/
def State.withPrivTohost (s : State) (q : Privilege) (h : Word) : State :=
  { s with params := { s.params with targetPriv := q, tohost := h } }

section OtherParams

variable (s : State) (q : Privilege) (h : Word)

theorem writeReg_withPrivTohost (rd : RegId) (v : Word) :
    writeReg (s.withPrivTohost q h) rd v = (writeReg s rd v).withPrivTohost q h := by
  unfold writeReg
  split <;> rfl

theorem advancePc_writeReg_withPrivTohost (rd : RegId) (v : Word) :
    advancePc (writeReg (s.withPrivTohost q h) rd v) =
      (advancePc (writeReg s rd v)).withPrivTohost q h := by
  rw [writeReg_withPrivTohost]
  rfl

/-- The two checks of a store read `MISALIGNED_STORE` and `STORE_ADMITTED` alone (R43, R105). -/
theorem storeException_withPrivTohost (ea : Word) :
    storeException (s.withPrivTohost q h).params ea = storeException s.params ea := rfl

theorem storeWord_withPrivTohost (ea v : Word) :
    storeWord (s.withPrivTohost q h) ea v = (storeWord s ea v).withPrivTohost q h := by
  unfold storeWord
  rw [storeException_withPrivTohost]
  cases storeException s.params ea <;> rfl

variable {s}

/-- No meaning reads `TARGET_PRIV` or `TOHOST`. -/
theorem exec_withPrivTohost {i : Instr} {t : State} (hx : exec i s = .next t) :
    exec i (s.withPrivTohost q h) = .next (t.withPrivTohost q h) := by
  cases i with
  | lui rd imm20 =>
    cases hx
    exact congrArg _ (advancePc_writeReg_withPrivTohost s q h rd _)
  | addi rd rs1 imm12 =>
    cases hx
    exact congrArg _ (advancePc_writeReg_withPrivTohost s q h rd _)
  | sw rs2 rs1 imm12 =>
    cases hx
    exact congrArg _ (storeWord_withPrivTohost s q h _ _)
  | ebreak =>
    cases hx
    rfl

theorem step_withPrivTohost {t : State} (ht : step s = .next t) :
    step (s.withPrivTohost q h) = .next (t.withPrivTohost q h) := by
  have hfetch : fetch (s.withPrivTohost q h) = fetch s := fetch_congr rfl rfl
  obtain ⟨hs, ⟨i, hf, hx⟩ | ⟨r, hf, rfl⟩⟩ := step_cases ht
  · rw [step_of_fetch (s := s.withPrivTohost q h) hs (hfetch.trans hf)]
    exact exec_withPrivTohost q h hx
  · exact step_of_refused hs (hfetch.trans hf)

end OtherParams

theorem status_ne_running_of_step_ne_next {s : State} (h : ∀ t, step s ≠ .next t) :
    s.status ≠ .running := fun hs =>
  (runningStateAlwaysSteps s hs).elim h

/-- A state with a final status is answered by that status alone (R93). -/
theorem step_congr_of_ne_running {s s' : State} (hst : s'.status = s.status) (hs : s.status ≠ .running) :
    step s' = step s := by
  cases h : s.status with
  | running => exact absurd h hs
  | halted r p => rw [step_of_halted h, step_of_halted (hst.trans h)]
  | faulted r => rw [step_of_faulted h, step_of_faulted (hst.trans h)]
  | refused r => rw [step_of_status_refused h, step_of_status_refused (hst.trans h)]

/-- Settles O44: a step that answers a next state fetches and executes alike, and any other answer names the
status alone. -/
theorem stepIgnoresPrivilegeAndTohost : Obligations.StepIgnoresPrivilegeAndTohost := by
  intro s q h
  have hfinal : (∀ t, step s ≠ .next t) → step (s.withPrivTohost q h) = step s := fun hn =>
    step_congr_of_ne_running rfl (status_ne_running_of_step_ne_next hn)
  refine ⟨fun t ht => step_withPrivTohost q h ht, fun f hf => ?_, fun f hf => ?_⟩
  · exact (hfinal (by simp [hf])).trans hf
  · exact (hfinal (by simp [hf])).trans hf

end Sys2Proof.Machine

/-!
The family 70_reset_and_hazards.md: the state after reset (R115) and a stub image placed in memory with control
at it (R92, R116).
-/

namespace Sys2Proof.Machine

/-! ### A placed stub (R92, R116) -/

/-- The placed image reads back (R88, R116 (3)). -/
theorem stubPlaced_placeStub {s : State} (p t : Word) (a b : RegId) (hwf : s.mem.wf = true) :
    stubPlaced (placeStub s p t a b).mem p t a b = true := by
  have hload := loadBytes_storeBytes s.mem p (stubImage t a b) hwf (by rw [length_stubImage]; decide)
  rw [length_stubImage] at hload
  rw [stubPlaced, placeStub_mem, hload, beq_self_eq_true]

/-- A byte outside the twenty of the image is as before (R41). -/
theorem readByte_placeStub_of_ne {s : State} {p : Word} {x : Nat} (t : Word) (a b : RegId)
    (hwf : s.mem.wf = true) (hx : ∀ k, k < 20 → x ≠ (p.toNat + k) % 2 ^ 32) :
    (placeStub s p t a b).mem.readByte x = s.mem.readByte x := by
  rw [placeStub_mem]
  refine readByte_storeBytes_outside s.mem p _ x hwf fun k hk => ?_
  rw [toNat_add_ofNat]
  exact hx k (by rwa [length_stubImage] at hk)

/-- Settles O58: status and pc are set by the placing, the image reads back, no register is touched, and
bytes outside the image are framed. -/
theorem placedStubIsAtItsEntry : Obligations.PlacedStubIsAtItsEntry := fun s p t a b hwf hal =>
  ⟨⟨placeStub_status s p t a b, placeStub_pc s p t a b, hal, stubPlaced_placeStub p t a b hwf⟩,
    readReg_congr (placeStub_regs s p t a b), fun _ => readByte_placeStub_of_ne t a b hwf⟩

/-! ### The machine at reset (R8, R115) -/

theorem reset_x0SlotZero : X0SlotZero State.reset := Vector.getElem_replicate (Nat.zero_lt_succ 31)

theorem reset_status : State.reset.status = .running := rfl

/-- Settles O48: the memory lists nothing, every register is 0, and `Running` claims nothing. -/
theorem resetMeetsTheInvariant : Obligations.ResetMeetsTheInvariant :=
  ⟨reset_mem_wf, reset_x0SlotZero, statusTruthful_of_running reset_status⟩

/-- Settles O50: `x0` reads 0 in every state, and the other two values are fields of the reset state. -/
theorem resetValuesOfTheSpec : Obligations.ResetValuesOfTheSpec :=
  ⟨readReg_zero State.reset, reset_status, rfl⟩

end Sys2Proof.Machine

/-!
The family other: words written out bit by bit from the field layouts (R52 to R55) and two words that no row of
R61 selects.
-/

namespace Sys2Proof

/-- A written word decodes to `i` when it is, bit for bit, the encoding of `i`. -/
theorem decodeWord_of_encode_eq {w : Word} {i : Instr} (h : encode i = w) : decodeWord w = some i :=
  h ▸ decodeWord_encode i

/-- The opcode of ADDI with another function code (R63). -/
theorem classify_slli_word : classify 0x00001013 = .notProduced := by decide

/-- The opcode of EBREAK with the SYSTEM immediate 0 in place of 1 (R63). -/
theorem classify_ecall_word : classify 0x00000073 = .notProduced := by decide

/-- Settles O17: the first four words are the encodings of their instructions, which decoding undoes, and the
last two are in no class. -/
theorem writtenWordsDecode : Obligations.WrittenWordsDecode := by
  refine ⟨decodeWord_of_encode_eq ?lui, decodeWord_of_encode_eq ?addi, decodeWord_of_encode_eq ?sw,
    decodeWord_of_encode_eq ?ebreak, (decodeWord_eq_none_iff _).2 classify_slli_word,
    (decodeWord_eq_none_iff _).2 classify_ecall_word⟩
  case lui => decide
  case addi => decide
  case sw => decide
  case ebreak => rfl

end Sys2Proof
